-- ==== Sys2Proof/Word.lean ====
section
/-! DEFINITION. Word.lean: the types of the block's data (00_scope.md R12, R13; 10_state.md R19) and the two
plainest ways to build a matrix. Nothing here depends on an instruction. -/

namespace Sys2Proof

/-- A byte, 0..255; bit 7 is the most significant (00_scope.md R12). -/
abbrev Byte := BitVec 8

/-- A register word of the window, 32 bits (00_scope.md R10: BUS_WIDTH). -/
abbrev Word := BitVec 32

/-- A 64-byte sequence, byte 0 first: a message block, a chaining value as bytes, a digest (00_scope.md R9). -/
abbrev Block := Vector Byte 64

/-- An 8×8 matrix of bytes `A[i][j]`, `i` the row and `j` the column (00_scope.md R13). -/
abbrev Grid := Vector (Vector Byte 8) 8

/-- The matrix whose entry at row `i`, column `j` is `f i j` (00_scope.md R13). -/
def gridOf (f : Fin 8 → Fin 8 → Byte) : Grid :=
  Vector.ofFn fun i => Vector.ofFn fun j => f i j

/-- The matrix of zero bytes. -/
def zeroGrid : Grid := gridOf fun _ _ => 0#8

/-- The block of zero bytes. -/
def zeroBlock : Block := Vector.ofFn fun _ => 0#8

end Sys2Proof
end

