-- ==== Sys2Proof/Config.lean ====
section
/-! DEFINITION. Config.lean: what a platform fixes and the spec leaves open. There is one such parameter: BASE
(00_scope.md R10, 20_memory.md R34, 93_implementation_defined.md U8). No instruction of the block leaves a value
undefined, so there is no other free value. -/

namespace Sys2Proof

/-- Which 256-byte page of the host's address map holds the window: OPEN in the spec, so a constant with no body
(log 6). -/
opaque Config.windowPage : Nat

/-- BASE, the host address of the window's first byte: any value aligned to 256 bytes (00_scope.md R10). -/
def Config.base : Nat := 256 * Config.windowPage

end Sys2Proof
end

