-- ==== Sys2Proof/Syntax.lean ====
section
/-! DEFINITION. Syntax.lean: the two encoded forms (30_encoding.md R48 and R52) and the instructions, one constructor
per row of spec/opcode_table.json, in the table's order. -/

namespace Sys2Proof

/-- The direction of a bus transaction. The write data D exists for W = 1 only (30_encoding.md R52). -/
inductive Access where
  | read
  | write (d : Word)
  deriving DecidableEq, Repr

/-- What the host hands the block: a command word written to CMD (format CMDW, R48), or a bus transaction (format
BUSX, R52): nine bits W:OFF and the 32-bit write data D. -/
inductive Packet where
  | cmdw (v : Word)
  | busx (code : BitVec 9) (d : Word)
  deriving DecidableEq, Repr

/-- The instructions: the 7 CMDW rows and the 17 BUSX rows of the opcode table. A row whose bits leave something
free (`low`, `rsvd`, `op`, `reg`, `n`, the direction) carries exactly those bits. -/
inductive Instr where
  /-- CMD word 0 (R79). -/
  | nop
  /-- CMD word 1 (R80). -/
  | init
  /-- CMD word 2 (R81). -/
  | compress
  /-- CMD word 3 (R82). -/
  | loadH
  /-- CMD words 0x4..0x7; `low` is OP[1:0] (R77). -/
  | illegalOp47 (low : BitVec 2)
  /-- CMD words 0x8..0xF; `low` is OP[2:0] (R77). -/
  | illegalOp8F (low : BitVec 3)
  /-- CMD words with v[31:4] ≠ 0; `rsvd` is v[31:4], `op` is v[3:0] (R77). -/
  | illegalRsvd (rsvd : BitVec 28) (op : BitVec 4)
  /-- OFF[1:0] = 01; `reg` is OFF[7:2] (R40). -/
  | misaligned01 (a : Access) (reg : BitVec 6)
  /-- OFF[1:0] = 10; `reg` is OFF[7:2] (R40). -/
  | misaligned10 (a : Access) (reg : BitVec 6)
  /-- OFF[1:0] = 11; `reg` is OFF[7:2] (R40). -/
  | misaligned11 (a : Access) (reg : BitVec 6)
  /-- read MSG_n (R83). -/
  | rdMsg (n : BitVec 4)
  /-- write MSG_n (R84). -/
  | wrMsg (n : BitVec 4) (d : Word)
  /-- read HASH_n (R85). -/
  | rdHash (n : BitVec 4)
  /-- write HASH_n (R86). -/
  | wrHash (n : BitVec 4) (d : Word)
  /-- read CMD (R87). -/
  | rdCmd
  /-- write CMD (R88). -/
  | wrCmd (d : Word)
  /-- read STATUS (R89). -/
  | rdStatus
  /-- write STATUS (R90). -/
  | wrStatus (d : Word)
  /-- read INFO (R91). -/
  | rdInfo
  /-- write INFO (R92). -/
  | wrInfo (d : Word)
  /-- OFF = 0x8C (R108). -/
  | unmapped8C (a : Access)
  /-- OFF = 0x90 + 4·q (R108). -/
  | unmapped90 (a : Access) (q : BitVec 2)
  /-- OFF = 0xA0 + 4·q (R108). -/
  | unmappedA0 (a : Access) (q : BitVec 3)
  /-- OFF = 0xC0 + 4·q (R108). -/
  | unmappedC0 (a : Access) (q : BitVec 4)
  deriving DecidableEq, Repr

end Sys2Proof
end

