-- ==== Sys2Proof/WellFormed.lean ====
section
/-! DEFINITION. WellFormed.lean: which terms of Instr stand for an encoding. Field widths are in the types; the one
condition left is the row ILLEGAL_RSVD's own: "selected when not all zero" (spec/opcode_table.json, 30_encoding.md R51). -/

namespace Sys2Proof

/-- The check of one instruction: ILLEGAL_RSVD needs v[31:4] ≠ 0; every other term is an encoding. -/
def Instr.wf : Instr → Bool
  | .nop => true
  | .init => true
  | .compress => true
  | .loadH => true
  | .illegalOp47 _ => true
  | .illegalOp8F _ => true
  | .illegalRsvd rsvd _ => rsvd != 0#28
  | .misaligned01 _ _ => true
  | .misaligned10 _ _ => true
  | .misaligned11 _ _ => true
  | .rdMsg _ => true
  | .wrMsg _ _ => true
  | .rdHash _ => true
  | .wrHash _ _ => true
  | .rdCmd => true
  | .wrCmd _ => true
  | .rdStatus => true
  | .wrStatus _ => true
  | .rdInfo => true
  | .wrInfo _ => true
  | .unmapped8C _ => true
  | .unmapped90 _ _ => true
  | .unmappedA0 _ _ => true
  | .unmappedC0 _ _ => true

end Sys2Proof
end

