-- ==== Sys2Proof/Decode.lean ====
section
/-! DEFINITION. Decode.lean: the decoder, total on every command word and every transaction (30_encoding.md R53), the
encoder after it, the opcode table's rows as data, and the packing of a table word's bits (log 9). -/

namespace Sys2Proof

/-- The instruction of a command word v (R50, R51): any v[31:4] ≠ 0 is ILLEGAL_RSVD whatever OP is; else OP decides. -/
def decodeCmdw (v : Word) : Instr :=
  let rsvd := v.extractLsb' 4 28
  let op := v.extractLsb' 0 4
  if rsvd ≠ 0#28 then .illegalRsvd rsvd op
  else if op = 0#4 then .nop
  else if op = 1#4 then .init
  else if op = 2#4 then .compress
  else if op = 3#4 then .loadH
  else if op.extractLsb' 3 1 = 0#1 then .illegalOp47 (op.extractLsb' 0 2)
  else .illegalOp8F (op.extractLsb' 0 3)

/-- The direction of a transaction: bit 8 is W, and D is the write data of a write only (R52, log 13). -/
def decodeAccess (code : BitVec 9) (d : Word) : Access :=
  if code.extractLsb' 8 1 = 1#1 then .write d else .read

/-- The instruction of a transaction code W:OFF with data D. The misaligned rows are tried first (R52, R36); an
aligned offset is looked up by OFF[7:6], then, for 10, by OFF[5:2]. -/
def decodeBusx (code : BitVec 9) (d : Word) : Instr :=
  let a := decodeAccess code d
  let low := code.extractLsb' 0 2
  let reg := code.extractLsb' 2 6
  let n := code.extractLsb' 2 4
  let bank := code.extractLsb' 6 2
  if low = 1#2 then .misaligned01 a reg
  else if low = 2#2 then .misaligned10 a reg
  else if low = 3#2 then .misaligned11 a reg
  else if bank = 0#2 then
    match a with
    | .read => .rdMsg n
    | .write d => .wrMsg n d
  else if bank = 1#2 then
    match a with
    | .read => .rdHash n
    | .write d => .wrHash n d
  else if bank = 3#2 then .unmappedC0 a n
  else if n = 0#4 then
    match a with
    | .read => .rdCmd
    | .write d => .wrCmd d
  else if n = 1#4 then
    match a with
    | .read => .rdStatus
    | .write d => .wrStatus d
  else if n = 2#4 then
    match a with
    | .read => .rdInfo
    | .write d => .wrInfo d
  else if n = 3#4 then .unmapped8C a
  else if code.extractLsb' 5 1 = 0#1 then .unmapped90 a (code.extractLsb' 2 2)
  else .unmappedA0 a (code.extractLsb' 2 3)

/-- The instruction of what the host hands the block. Every packet has one (R53). -/
def decode : Packet → Instr
  | .cmdw v => decodeCmdw v
  | .busx code d => decodeBusx code d

/-- The transaction of a direction and an offset: W in bit 8, OFF in bits 7:0; a read carries no data (R52). -/
def busx : Access → BitVec 8 → Packet
  | .read, off => .busx (0#1 ++ off) 0#32
  | .write d, off => .busx (1#1 ++ off) d

/-- The words of an instruction, from the tables of R50 and R52. -/
def encode : Instr → Packet
  | .nop => .cmdw 0x00000000#32
  | .init => .cmdw 0x00000001#32
  | .compress => .cmdw 0x00000002#32
  | .loadH => .cmdw 0x00000003#32
  | .illegalOp47 low => .cmdw (0#28 ++ 0b01#2 ++ low)
  | .illegalOp8F low => .cmdw (0#28 ++ 0b1#1 ++ low)
  | .illegalRsvd rsvd op => .cmdw (rsvd ++ op)
  | .misaligned01 a reg => busx a (reg ++ 0b01#2)
  | .misaligned10 a reg => busx a (reg ++ 0b10#2)
  | .misaligned11 a reg => busx a (reg ++ 0b11#2)
  | .rdMsg n => busx .read (0b00#2 ++ n ++ 0b00#2)
  | .wrMsg n d => busx (.write d) (0b00#2 ++ n ++ 0b00#2)
  | .rdHash n => busx .read (0b01#2 ++ n ++ 0b00#2)
  | .wrHash n d => busx (.write d) (0b01#2 ++ n ++ 0b00#2)
  | .rdCmd => busx .read 0x80#8
  | .wrCmd d => busx (.write d) 0x80#8
  | .rdStatus => busx .read 0x84#8
  | .wrStatus d => busx (.write d) 0x84#8
  | .rdInfo => busx .read 0x88#8
  | .wrInfo d => busx (.write d) 0x88#8
  | .unmapped8C a => busx a 0x8C#8
  | .unmapped90 a q => busx a (0b1001#4 ++ q ++ 0b00#2)
  | .unmappedA0 a q => busx a (0b101#3 ++ q ++ 0b00#2)
  | .unmappedC0 a q => busx a (0b11#2 ++ q ++ 0b00#2)

/-- How a row of the opcode table selects words: `(w & mask) = match`, or, for ILLEGAL_RSVD only, "v[31:4] selected
when not all zero". -/
inductive Pattern where
  | maskMatch (mask mtch : Word)
  | rsvdNonzero
  deriving DecidableEq, Repr

/-- The two formats of the opcode table (R48, R52). -/
inductive Format where
  | cmdw
  | busx
  deriving DecidableEq, Repr

/-- A row of spec/opcode_table.json. -/
structure Row where
  mnemonic : String
  format   : Format
  pattern  : Pattern
  deriving DecidableEq, Repr

/-- The rows of spec/opcode_table.json, in its order. -/
def opcodeTable : List Row :=
  [⟨"NOP", .cmdw, .maskMatch 0xFFFFFFFF 0x00000000⟩,
   ⟨"INIT", .cmdw, .maskMatch 0xFFFFFFFF 0x00000001⟩,
   ⟨"COMPRESS", .cmdw, .maskMatch 0xFFFFFFFF 0x00000002⟩,
   ⟨"LOAD_H", .cmdw, .maskMatch 0xFFFFFFFF 0x00000003⟩,
   ⟨"ILLEGAL_OP_4_7", .cmdw, .maskMatch 0xFFFFFFFC 0x00000004⟩,
   ⟨"ILLEGAL_OP_8_F", .cmdw, .maskMatch 0xFFFFFFF8 0x00000008⟩,
   ⟨"ILLEGAL_RSVD", .cmdw, .rsvdNonzero⟩] ++
  [⟨"MISALIGNED", .busx, .maskMatch 0x003 0x001⟩,
   ⟨"MISALIGNED", .busx, .maskMatch 0x003 0x002⟩,
   ⟨"MISALIGNED", .busx, .maskMatch 0x003 0x003⟩,
   ⟨"RD_MSG", .busx, .maskMatch 0x1C3 0x000⟩,
   ⟨"WR_MSG", .busx, .maskMatch 0x1C3 0x100⟩,
   ⟨"RD_HASH", .busx, .maskMatch 0x1C3 0x040⟩,
   ⟨"WR_HASH", .busx, .maskMatch 0x1C3 0x140⟩,
   ⟨"RD_CMD", .busx, .maskMatch 0x1FF 0x080⟩,
   ⟨"WR_CMD", .busx, .maskMatch 0x1FF 0x180⟩] ++
  [⟨"RD_STATUS", .busx, .maskMatch 0x1FF 0x084⟩,
   ⟨"WR_STATUS", .busx, .maskMatch 0x1FF 0x184⟩,
   ⟨"RD_INFO", .busx, .maskMatch 0x1FF 0x088⟩,
   ⟨"WR_INFO", .busx, .maskMatch 0x1FF 0x188⟩,
   ⟨"UNMAPPED", .busx, .maskMatch 0x0FF 0x08C⟩,
   ⟨"UNMAPPED", .busx, .maskMatch 0x0F3 0x090⟩,
   ⟨"UNMAPPED", .busx, .maskMatch 0x0E3 0x0A0⟩,
   ⟨"UNMAPPED", .busx, .maskMatch 0x0C3 0x0C0⟩]

/-- Whether a pattern selects a word. -/
def Pattern.selects : Pattern → Word → Bool
  | .maskMatch mask mtch, w => w &&& mask == mtch
  | .rsvdNonzero, w => w.extractLsb' 4 28 != 0#28

/-- Whether a row selects a packet: the formats agree and the pattern selects the word (a transaction's nine bits
stand in bits 8:0). -/
def Row.selects (row : Row) : Packet → Bool
  | .cmdw v => row.format == .cmdw && row.pattern.selects v
  | .busx code _ => row.format == .busx && row.pattern.selects (code.setWidth 32)

/-- The place of an instruction's row in `opcodeTable`. -/
def Instr.rowIndex : Instr → Fin 24
  | .nop => 0
  | .init => 1
  | .compress => 2
  | .loadH => 3
  | .illegalOp47 _ => 4
  | .illegalOp8F _ => 5
  | .illegalRsvd _ _ => 6
  | .misaligned01 _ _ => 7
  | .misaligned10 _ _ => 8
  | .misaligned11 _ _ => 9
  | .rdMsg _ => 10
  | .wrMsg _ _ => 11
  | .rdHash _ => 12
  | .wrHash _ _ => 13
  | .rdCmd => 14
  | .wrCmd _ => 15
  | .rdStatus => 16
  | .wrStatus _ => 17
  | .rdInfo => 18
  | .wrInfo _ => 19
  | .unmapped8C _ => 20
  | .unmapped90 _ _ => 21
  | .unmappedA0 _ _ => 22
  | .unmappedC0 _ _ => 23

/-- Why a run of bits is no packet. -/
inductive DecodeError where
  /-- a transaction has nine bits: bits above W are not zero (R52). -/
  | bitsAboveW
  /-- no format of the block has this many bits (R48: "no other command length"; R52). -/
  | noSuchFormat
  /-- the number has bits above the `nbits` the row gives it. -/
  | bitsAboveWord
  deriving DecidableEq, Repr

/-- The packet whose bits are w, as the table numbers them: 32 bits are a command word; up to 16 are a transaction
code with D = 0; 48 are a transaction code in its first 16 bits and D in the next 32 (log 9). -/
def Packet.ofBits (nbits w : Nat) : Except DecodeError Packet :=
  if 2 ^ nbits ≤ w then .error .bitsAboveWord
  else if nbits = 32 then .ok (.cmdw (BitVec.ofNat 32 w))
  else if nbits ≤ 16 ∨ nbits = 48 then
    if w % 65536 < 512 then .ok (.busx (BitVec.ofNat 9 (w % 65536)) (BitVec.ofNat 32 (w / 65536)))
    else .error .bitsAboveW
  else .error .noSuchFormat

/-- The instruction the decoder reads from an instruction whose bits are w, numbered as spec/opcode_table.json
numbers them; none where the bits are no packet. -/
def decodeTableWord (nbits w : Nat) : Option Instr :=
  match Packet.ofBits nbits w with
  | .ok p => some (decode p)
  | .error _ => none

end Sys2Proof
end

