-- ==== Sys2Proof/Machine/State.lean ====
section
/-! DEFINITION. Machine/State.lean: the state of one instance as plain data (10_state.md R19), what the host sees of an
access (20_memory.md R36, 60_exceptions.md R107), the inputs from outside (00_scope.md R17), the reasons a step stops,
and the state after reset (10_state.md R33). -/

namespace Sys2Proof.Machine

/-- The bus response of an access (20_memory.md R36). -/
inductive Response where
  | ok
  | busErr
  deriving DecidableEq, Repr

/-- The error catalogue, "the reason a model records with the error" (60_exceptions.md R107). The host does not see it. -/
inductive Cause where
  | misaligned
  | unmapped
  | readOnly
  | illegalCmd
  | busyCmd
  deriving DecidableEq, Repr

/-- What an access answers: the response, the read data (a read only), and the cause of an error (R36, R107, R109). -/
structure Reply where
  response : Response
  data     : Option Word
  cause    : Option Cause
  deriving DecidableEq, Repr

/-- The five STATUS flags (10_state.md R24); the reserved bits have no storage. -/
structure Status where
  busy    : Bool
  done    : Bool
  errCmd  : Bool
  errBusy : Bool
  errBus  : Bool
  deriving DecidableEq, Repr

/-- What can happen to the block next: a packet at its port (a transaction, or a command word reaching CMD), a host
access by host address with a width in bytes (R34, R41), an engine tick (R72), a reset (R121). -/
inductive Input where
  | packet (p : Packet)
  | hostAccess (a : Access) (address : Nat) (bytes : Nat)
  | tick
  | reset
  deriving DecidableEq, Repr

/-- One instance: R19's state, then the model's own two fields: the reply of the latest access (log 2) and what the
outside world does next, in order (log 1). -/
structure State where
  msg    : Block
  h      : Grid
  status : Status
  k      : Grid
  ws     : Grid
  ml     : Grid
  r      : BitVec 4
  reply  : Option Reply
  inputs : List Input
  deriving DecidableEq, Repr

/-- Why a step stops the machine. -/
inductive Fault where
  /-- Raised by a tick whose round r + 1 is not one of 1..10: the spec says r = 10 with BUSY = 1 and r = 11..15 are
  never reached (10_state.md R29) and that no round constant exists there (40_round_function.md R65). Safe: the model
  stops where the spec says nothing (log 5). -/
  | roundOutOfRange
  deriving DecidableEq, Repr

/-- Why a step is refused. -/
inductive Refusal where
  /-- Raised by an arm of `exec` whose instruction has no meaning yet; no arm does. Safe. -/
  | notModelled (mnemonic : String)
  /-- Raised by a host access of a width other than 4 bytes: "A model refuses n ≠ 4" (20_memory.md R41). Safe (log 7). -/
  | accessWidth
  /-- Raised by a host access at an address outside the window at BASE, which is not this block's (20_memory.md R34).
  Safe (log 8). -/
  | outsideWindow
  deriving DecidableEq, Repr

/-- The state after reset (10_state.md R33): everything zero. No access has been answered (R121) and no input is
planned (log 1). -/
def State.reset : State where
  msg    := zeroBlock
  h      := zeroGrid
  status := { busy := false, done := false, errCmd := false, errBusy := false, errBus := false }
  k      := zeroGrid
  ws     := zeroGrid
  ml     := zeroGrid
  r      := 0#4
  reply  := none
  inputs := []

end Sys2Proof.Machine
end

