-- ==== Sys2Proof/Machine/Operands.lean ====
section
/-! DEFINITION. Machine/Operands.lean: the operand forms. The byte-to-matrix map μ (00_scope.md R14), the register words
of MSG and HASH and their byte lanes (20_memory.md R37), the constant INFO (10_state.md R26), and how a host address
reaches a window offset (20_memory.md R34, R41). -/

namespace Sys2Proof.Machine

/-- The place of byte `i`, `j` of a matrix in its 64-byte sequence: 8·i + j (R14). -/
def flatIndex (i j : Fin 8) : Fin 64 := ⟨8 * i.val + j.val, by omega⟩

/-- μ: rows of eight bytes, μ(b)[i][j] = b[8·i + j] (R14). -/
def blockToGrid (b : Block) : Grid := gridOf fun i j => b[flatIndex i j]

/-- μ⁻¹: μ⁻¹(A)[8·i + j] = A[i][j] (R14). -/
def gridToBlock (g : Grid) : Block :=
  Vector.ofFn fun k => (g[k.val / 8]'(by omega))[k.val % 8]'(by omega)

/-- The place of byte lane `l` of register word `n`: 4·n + l (R37). -/
def laneIndex (n : BitVec 4) (l : Fin 4) : Fin 64 := ⟨4 * n.toNat + l.val, by have := n.isLt; omega⟩

/-- Register word `n` of a byte array: the byte at the lowest offset in bits 7:0 (R37). -/
def blockWord (b : Block) (n : BitVec 4) : Word :=
  b[laneIndex n 3] ++ b[laneIndex n 2] ++ b[laneIndex n 1] ++ b[laneIndex n 0]

/-- Byte lane `l` of a word: bits 8·l + 7 down to 8·l (R37). -/
def wordLane (d : Word) (l : Fin 4) : Byte := d.extractLsb' (8 * l.val) 8

/-- The byte array after register word `n` is written with `d` (R37, R84). -/
def setBlockWord (b : Block) (n : BitVec 4) (d : Word) : Block :=
  (((b.set (laneIndex n 0) (wordLane d 0)).set (laneIndex n 1) (wordLane d 1)).set
    (laneIndex n 2) (wordLane d 2)).set (laneIndex n 3) (wordLane d 3)

/-- INFO: DIGEST_SIZE in bits 7:0, BLOCK_SIZE in 15:8, ROUNDS in 23:16, zero above (10_state.md R26). -/
def infoWord : Word := 0x000A4040#32

/-- The value CMD reads as (10_state.md R27). -/
def cmdReadWord : Word := 0x00000000#32

/-- The offset of MSG_n (20_memory.md R35). -/
def msgOffset (n : BitVec 4) : BitVec 8 := 0b00#2 ++ n ++ 0b00#2

/-- The offset of HASH_n (20_memory.md R35). -/
def hashOffset (n : BitVec 4) : BitVec 8 := 0b01#2 ++ n ++ 0b00#2

/-- The offset of CMD (20_memory.md R35). -/
def cmdOffset : BitVec 8 := 0x80#8

/-- The offset of STATUS (20_memory.md R35). -/
def statusOffset : BitVec 8 := 0x84#8

/-- The offset of INFO (20_memory.md R35). -/
def infoOffset : BitVec 8 := 0x88#8

/-- The window offset a host access reaches: a 4-byte access at BASE + offset, offset 0..255 (R34, R41). Any other
width, and any other address, is refused by name (logs 7 and 8). The width is checked first. -/
def windowOffset (base address bytes : Nat) : Except Refusal (BitVec 8) :=
  if bytes ≠ 4 then .error .accessWidth
  else if base ≤ address ∧ address < base + 256 then .ok (BitVec.ofNat 8 (address - base))
  else .error .outsideWindow

end Sys2Proof.Machine
end

