-- ==== Sys2Proof/Machine/Round.lean ====
section
/-! DEFINITION. Machine/Round.lean: the round function ρ and its layers γ, π, θ, σ with their constant tables
(40_round_function.md R55 to R65), over the field GF(2^8) of 00_scope.md R15. The constants are the spec's; it marks
them as supplied from general knowledge (log 15). -/

namespace Sys2Proof.Machine

/-- Multiplication by x in GF(2^8): the shift and the conditional reduction by 0x1D of R15 and R63. -/
def xtime (a : Byte) : Byte := (a <<< 1) ^^^ (if a.msb then 0x1D#8 else 0#8)

/-- One turn of R15's loop over bit `k` of `b`, on the pair (p, a). -/
def gmulTurn (b : Byte) (pa : Byte × Byte) (k : Nat) : Byte × Byte :=
  (if b.getLsbD k then pa.1 ^^^ pa.2 else pa.1, xtime pa.2)

/-- The field product a ⊗ b, by R15's pseudocode: eight turns from p = 0. -/
def gmul (a b : Byte) : Byte := ([0, 1, 2, 3, 4, 5, 6, 7].foldl (gmulTurn b) (0#8, a)).1

/-- The S-box of R57: the row is the high nibble of the input, the column the low nibble. -/
def sboxTable : Vector (Vector Byte 16) 16 := #v[
  #v[0x18, 0x23, 0xc6, 0xe8, 0x87, 0xb8, 0x01, 0x4f, 0x36, 0xa6, 0xd2, 0xf5, 0x79, 0x6f, 0x91, 0x52],
  #v[0x60, 0xbc, 0x9b, 0x8e, 0xa3, 0x0c, 0x7b, 0x35, 0x1d, 0xe0, 0xd7, 0xc2, 0x2e, 0x4b, 0xfe, 0x57],
  #v[0x15, 0x77, 0x37, 0xe5, 0x9f, 0xf0, 0x4a, 0xda, 0x58, 0xc9, 0x29, 0x0a, 0xb1, 0xa0, 0x6b, 0x85],
  #v[0xbd, 0x5d, 0x10, 0xf4, 0xcb, 0x3e, 0x05, 0x67, 0xe4, 0x27, 0x41, 0x8b, 0xa7, 0x7d, 0x95, 0xd8],
  #v[0xfb, 0xee, 0x7c, 0x66, 0xdd, 0x17, 0x47, 0x9e, 0xca, 0x2d, 0xbf, 0x07, 0xad, 0x5a, 0x83, 0x33],
  #v[0x63, 0x02, 0xaa, 0x71, 0xc8, 0x19, 0x49, 0xd9, 0xf2, 0xe3, 0x5b, 0x88, 0x9a, 0x26, 0x32, 0xb0],
  #v[0xe9, 0x0f, 0xd5, 0x80, 0xbe, 0xcd, 0x34, 0x48, 0xff, 0x7a, 0x90, 0x5f, 0x20, 0x68, 0x1a, 0xae],
  #v[0xb4, 0x54, 0x93, 0x22, 0x64, 0xf1, 0x73, 0x12, 0x40, 0x08, 0xc3, 0xec, 0xdb, 0xa1, 0x8d, 0x3d],
  #v[0x97, 0x00, 0xcf, 0x2b, 0x76, 0x82, 0xd6, 0x1b, 0xb5, 0xaf, 0x6a, 0x50, 0x45, 0xf3, 0x30, 0xef],
  #v[0x3f, 0x55, 0xa2, 0xea, 0x65, 0xba, 0x2f, 0xc0, 0xde, 0x1c, 0xfd, 0x4d, 0x92, 0x75, 0x06, 0x8a],
  #v[0xb2, 0xe6, 0x0e, 0x1f, 0x62, 0xd4, 0xa8, 0x96, 0xf9, 0xc5, 0x25, 0x59, 0x84, 0x72, 0x39, 0x4c],
  #v[0x5e, 0x78, 0x38, 0x8c, 0xd1, 0xa5, 0xe2, 0x61, 0xb3, 0x21, 0x9c, 0x1e, 0x43, 0xc7, 0xfc, 0x04],
  #v[0x51, 0x99, 0x6d, 0x0d, 0xfa, 0xdf, 0x7e, 0x24, 0x3b, 0xab, 0xce, 0x11, 0x8f, 0x4e, 0xb7, 0xeb],
  #v[0x3c, 0x81, 0x94, 0xf7, 0xb9, 0x13, 0x2c, 0xd3, 0xe7, 0x6e, 0xc4, 0x03, 0x56, 0x44, 0x7f, 0xa9],
  #v[0x2a, 0xbb, 0xc1, 0x53, 0xdc, 0x0b, 0x9d, 0x6c, 0x31, 0x74, 0xf6, 0x46, 0xac, 0x89, 0x14, 0xe1],
  #v[0x16, 0x3a, 0x69, 0x09, 0x70, 0xb6, 0xd0, 0xed, 0xcc, 0x42, 0x98, 0xa4, 0x28, 0x5c, 0xf8, 0x86]]

/-- Entry `c` of a row of sixteen, by a nibble. -/
def nibbleAt {α : Type} (v : Vector α 16) (c : BitVec 4) : α := v[c.toNat]'c.isLt

/-- S[u], from the table (R57). -/
def sbox (u : Byte) : Byte := nibbleAt (nibbleAt sboxTable (u.extractLsb' 4 4)) (u.extractLsb' 0 4)

/-- The mini-box E of R58. -/
def boxE : Vector (BitVec 4) 16 :=
  #v[0x1, 0xB, 0x9, 0xC, 0xD, 0x6, 0xF, 0x3, 0xE, 0x8, 0x7, 0x4, 0xA, 0x2, 0x5, 0x0]

/-- The mini-box E⁻¹ of R58. -/
def boxEInv : Vector (BitVec 4) 16 :=
  #v[0xF, 0x0, 0xD, 0x7, 0xB, 0xE, 0x5, 0xA, 0x9, 0x2, 0xC, 0x1, 0x3, 0x4, 0x8, 0x6]

/-- The mini-box R of R58. -/
def boxR : Vector (BitVec 4) 16 :=
  #v[0x7, 0xC, 0xB, 0xD, 0xE, 0x4, 0x9, 0xF, 0x6, 0x3, 0x8, 0xA, 0x2, 0x5, 0x1, 0x0]

/-- The construction of S from the mini-boxes (R58). The machine uses the table; this is the spec's second form. -/
def sboxFromMiniBoxes (u : Byte) : Byte :=
  let a := nibbleAt boxE (u.extractLsb' 4 4)
  let b := nibbleAt boxEInv (u.extractLsb' 0 4)
  let t := nibbleAt boxR (a ^^^ b)
  nibbleAt boxE (a ^^^ t) ++ nibbleAt boxEInv (b ^^^ t)

/-- γ: the S-box on every byte (R56). -/
def gamma (a : Grid) : Grid := gridOf fun i j => sbox a[i][j]

/-- π: column j rotated down by j, π(A)[i][j] = A[(i − j) mod 8][j] (R60). Fin 8 subtraction is modulo 8. -/
def cyclicPi (a : Grid) : Grid := gridOf fun i j => a[i - j][j]

/-- The first row c of the circulant diffusion matrix (R62). -/
def diffusionRow : Vector Byte 8 := #v[0x01, 0x01, 0x04, 0x01, 0x08, 0x05, 0x02, 0x09]

/-- The diffusion matrix C[k][j] = c[(j − k) mod 8] (R62). -/
def diffusion (k j : Fin 8) : Byte := diffusionRow[j - k]

/-- The sum over k = 0..7 in the field, where addition is exclusive or (R15, R61). -/
def xorSum8 (f : Fin 8 → Byte) : Byte := f 0 ^^^ f 1 ^^^ f 2 ^^^ f 3 ^^^ f 4 ^^^ f 5 ^^^ f 6 ^^^ f 7

/-- θ: each row of A times C, θ(A)[i][j] = ⊕_k A[i][k] ⊗ C[k][j] (R61). -/
def theta (a : Grid) : Grid := gridOf fun i j => xorSum8 fun k => gmul a[i][k] (diffusion k j)

/-- The element-wise exclusive or of two matrices, A ⊕ B (00_scope.md R13). -/
def gridXor (a b : Grid) : Grid := gridOf fun i j => a[i][j] ^^^ b[i][j]

/-- σ[K](A): the key addition (R64). -/
def sigma (key a : Grid) : Grid := gridXor a key

/-- ρ[K](A) = σ[K](θ(π(γ(A)))) (R55). -/
def rho (key a : Grid) : Grid := sigma key (theta (cyclicPi (gamma a)))

/-- The round constant c^r: row 0 is S[8·(r − 1) + j], rows 1 to 7 are zero (R65). It exists for r = 1..10 only; `tick`
checks that range and no statement of the key schedule goes past it. -/
def roundConst (r : Nat) : Grid :=
  gridOf fun i j => if i = 0 then sbox (BitVec.ofNat 8 (8 * (r - 1) + j.val)) else 0#8

end Sys2Proof.Machine
end

