-- ==== Sys2Proof/Machine/Compression.lean ====
section
/-! DEFINITION. Machine/Compression.lean: the function the block computes: the key schedule, the cipher W and the
compression function f (41_compression.md R66 to R68). -/

namespace Sys2Proof.Machine

/-- ROUNDS = 10, which is COMPRESS_TICKS (00_scope.md R9, R10). -/
def rounds : Nat := 10

/-- K^r for r = 0..10: K^0 = H, K^r = ρ[c^r](K^(r−1)) (R66). -/
def roundKey (h : Grid) : Nat → Grid
  | 0 => h
  | r + 1 => rho (roundConst (r + 1)) (roundKey h r)

/-- W^r for r = 0..10: W^0 = M ⊕ H, W^r = ρ[K^r](W^(r−1)) (R67). -/
def cipherState (h m : Grid) : Nat → Grid
  | 0 => gridXor m h
  | r + 1 => rho (roundKey h (r + 1)) (cipherState h m r)

/-- W[H](M) = W^10 (R67). -/
def cipher (h m : Grid) : Grid := cipherState h m rounds

/-- W[H](M) ⊕ H ⊕ M on matrices (R68). -/
def compressGrid (h m : Grid) : Grid := gridXor (gridXor (cipher h m) h) m

/-- f(h, m) = μ⁻¹(W[H](M) ⊕ H ⊕ M) on 64-byte values (R68). -/
def compressBlock (h m : Block) : Block := gridToBlock (compressGrid (blockToGrid h) (blockToGrid m))

end Sys2Proof.Machine
end

