-- ==== Sys2Proof/Machine/Flags.lean ====
section
/-! DEFINITION. Machine/Flags.lean: every setter and clearer of a STATUS flag (10_state.md R24, R25), the STATUS word
(42_commands.md R89) and the write-one-to-clear write (R90). -/

namespace Sys2Proof.Machine

/-- The STATUS word: ERR_BUS in bit 10, ERR_BUSY in bit 9, ERR_CMD in bit 8, DONE in bit 1, BUSY in bit 0, every other
bit zero (R89). -/
def Status.word (st : Status) : Word :=
  0#21 ++ BitVec.ofBool st.errBus ++ BitVec.ofBool st.errBusy ++ BitVec.ofBool st.errCmd ++ 0#6 ++
    BitVec.ofBool st.done ++ BitVec.ofBool st.busy

/-- A write of STATUS: each W1C flag keeps its value unless its bit of `d` is 1; BUSY and the other bits are ignored
(R90). -/
def Status.clearBy (st : Status) (d : Word) : Status :=
  { st with
    done    := st.done && !d.getLsbD 1
    errCmd  := st.errCmd && !d.getLsbD 8
    errBusy := st.errBusy && !d.getLsbD 9
    errBus  := st.errBus && !d.getLsbD 10 }

/-- ERR_CMD <- 1 (R77). -/
def Status.raiseCmd (st : Status) : Status := { st with errCmd := true }

/-- ERR_BUSY <- 1 (R78). -/
def Status.raiseBusy (st : Status) : Status := { st with errBusy := true }

/-- ERR_BUS <- 1 (60_exceptions.md R109). -/
def Status.raiseBus (st : Status) : Status := { st with errBus := true }

/-- BUSY <- 1, DONE <- 0: acceptance of COMPRESS (41_compression.md R71). -/
def Status.start (st : Status) : Status := { st with busy := true, done := false }

/-- BUSY <- 0, DONE <- 1: the final tick (41_compression.md R73). -/
def Status.finish (st : Status) : Status := { st with busy := false, done := true }

/-- DONE <- 1: INIT and LOAD_H, whose clear at acceptance and set at completion fall in one step, "and the set wins"
(10_state.md R25). -/
def Status.complete (st : Status) : Status := { st with done := true }

end Sys2Proof.Machine
end

