-- ==== Sys2Proof/Machine/Ops.lean ====
section
/-! DEFINITION. Machine/Ops.lean: the shared operations every meaning calls: one update per part of the state, the
replies of an access (20_memory.md R36, R37), BusError (60_exceptions.md R109), the commands' effects
(42_commands.md R76 to R82), the engine's tick (41_compression.md R71 to R73) and reset (70_reset_and_hazards.md R121). -/

namespace Sys2Proof.Machine

/-- The outcome of one step of this machine. -/
abbrev StepOutcome := Host.Outcome State Fault Refusal

/-- Replace MSG. -/
def State.withMsg (s : State) (m : Block) : State := { s with msg := m }

/-- Replace H. -/
def State.withH (s : State) (g : Grid) : State := { s with h := g }

/-- Replace the STATUS flags. -/
def State.withStatus (s : State) (st : Status) : State := { s with status := st }

/-- Replace K, WS and r, the part of the hidden state a tick writes. -/
def State.withRound (s : State) (key work : Grid) (round : BitVec 4) : State :=
  { s with k := key, ws := work, r := round }

/-- Replace ML. -/
def State.withMl (s : State) (m : Grid) : State := { s with ml := m }

/-- Replace the reply of the latest access. -/
def State.withReply (s : State) (rep : Option Reply) : State := { s with reply := rep }

/-- Replace the planned inputs. -/
def State.withInputs (s : State) (is : List Input) : State := { s with inputs := is }

/-! ### Replies -/

/-- A read answers OK with its data and changes nothing else (R36, R42: "No read has a side effect"). -/
def answerRead (d : Word) (s : State) : State := s.withReply (some ⟨.ok, some d, none⟩)

/-- A write answers OK. -/
def answerWrite (s : State) : State := s.withReply (some ⟨.ok, none, none⟩)

/-- A write of CMD that is dropped answers OK all the same; the model records the cause (R76, R107). -/
def answerDropped (c : Cause) (s : State) : State := s.withReply (some ⟨.ok, none, some c⟩)

/-- The data of a refused access: a read gets 0x00000000 (R109). -/
def errorData : Access → Option Word
  | .read => some 0x00000000#32
  | .write _ => none

/-- `raise BusError(reason)`: ERR_BUS <- 1, response BUS_ERR, read data zero, "no other state changes" (R109). It is
the block's only exception: it saves nothing and transfers no control (R113), and there is no return from it (R114). -/
def raiseBusError (c : Cause) (a : Access) (s : State) : State :=
  (s.withStatus s.status.raiseBus).withReply (some ⟨.busErr, errorData a, some c⟩)

/-! ### Commands -/

/-- An illegal command word: ERR_CMD <- 1 and nothing else (R77). -/
def dropIllegal (s : State) : State := answerDropped .illegalCmd (s.withStatus s.status.raiseCmd)

/-- A valid command while BUSY = 1: ERR_BUSY <- 1, "dropped, not queued" (R78). -/
def dropBusy (s : State) : State := answerDropped .busyCmd (s.withStatus s.status.raiseBusy)

/-- NOP: nothing (R79). -/
def runNop (s : State) : State := answerWrite s

/-- INIT when accepted: H <- 0, DONE <- 1 (R80). -/
def runInit (s : State) : State := answerWrite ((s.withH zeroGrid).withStatus s.status.complete)

/-- COMPRESS when accepted: ML <- μ(MSG), K <- H, WS <- μ(MSG) ⊕ H, r <- 0, BUSY <- 1, DONE <- 0 (R71, R81). H keeps
the old chaining value. -/
def runCompress (s : State) : State :=
  let m := blockToGrid s.msg
  answerWrite (((s.withMl m).withRound s.h (gridXor m s.h) 0#4).withStatus s.status.start)

/-- LOAD_H when accepted: H <- μ(MSG), DONE <- 1 (R82). -/
def runLoadH (s : State) : State :=
  answerWrite ((s.withH (blockToGrid s.msg)).withStatus s.status.complete)

/-- The busy check of R76, after the illegal and NOP checks: a non-NOP command is accepted only when BUSY = 0. -/
def whenIdle (run : State → State) (s : State) : State := if s.status.busy then dropBusy s else run s

/-- `cmd_write(v)`, in R76's order: illegal first, then NOP, then busy, then the selected command. -/
def cmdWrite (v : Word) (s : State) : State :=
  if v.extractLsb' 4 28 ≠ 0#28 ∨ 4#4 ≤ v.extractLsb' 0 4 then dropIllegal s
  else if v.extractLsb' 0 4 = 0#4 then runNop s
  else if s.status.busy then dropBusy s
  else if v.extractLsb' 0 4 = 1#4 then runInit s
  else if v.extractLsb' 0 4 = 2#4 then runCompress s
  else runLoadH s

/-! ### The round engine -/

/-- The final tick's write: H <- WS10 ⊕ H ⊕ ML, BUSY <- 0, DONE <- 1 (R73). -/
def finalTick (s : State) : State :=
  (s.withH (gridXor (gridXor s.ws s.h) s.ml)).withStatus s.status.finish

/-- One tick of an in-flight COMPRESS: round r' = r + 1 of the key, then of the state with the new key, then, when
r' = 10, the final write (R72). A round outside 1..10 has no constant (R65) and is a named fault (log 5). -/
def tick (s : State) : StepOutcome :=
  let r' := s.r.toNat + 1
  if r' ≤ rounds then
    let k' := rho (roundConst r') s.k
    let t := s.withRound k' (rho k' s.ws) (BitVec.ofNat 4 r')
    .next (if r' = rounds then finalTick t else t)
  else .fault .roundOutOfRange

/-- The engine's turn: a tick "enabled exactly when STATUS.BUSY = 1" (R72); an idle engine does nothing (R123, log 4). -/
def engineTurn (s : State) : StepOutcome := if s.status.busy then tick s else .next s

/-! ### Reset -/

/-- Reset, at any time: every piece of the block's state to R33's value, no bus response (R121, R122). What the outside
world does next is not the block's state and stays. -/
def resetBlock (s : State) : State := State.reset.withInputs s.inputs

end Sys2Proof.Machine
end

