-- ==== Sys2Proof/Machine/BusErrors.lean ====
section
/-! DEFINITION. Machine/BusErrors.lean: the meanings of the rows that refuse an access: misaligned (20_memory.md R40)
and unmapped (60_exceptions.md R108). "The offending offset and word are lost" (R107). -/

namespace Sys2Proof.Machine

/-- OFF[1:0] = 01 (R40). -/
def execMisaligned01 (a : Access) (_reg : BitVec 6) (s : State) : StepOutcome :=
  .next (raiseBusError .misaligned a s)

/-- OFF[1:0] = 10 (R40). -/
def execMisaligned10 (a : Access) (_reg : BitVec 6) (s : State) : StepOutcome :=
  .next (raiseBusError .misaligned a s)

/-- OFF[1:0] = 11 (R40). -/
def execMisaligned11 (a : Access) (_reg : BitVec 6) (s : State) : StepOutcome :=
  .next (raiseBusError .misaligned a s)

/-- OFF = 0x8C (R108). -/
def execUnmapped8C (a : Access) (s : State) : StepOutcome := .next (raiseBusError .unmapped a s)

/-- OFF = 0x90..0x9C (R108). -/
def execUnmapped90 (a : Access) (_q : BitVec 2) (s : State) : StepOutcome := .next (raiseBusError .unmapped a s)

/-- OFF = 0xA0..0xBC (R108). -/
def execUnmappedA0 (a : Access) (_q : BitVec 3) (s : State) : StepOutcome := .next (raiseBusError .unmapped a s)

/-- OFF = 0xC0..0xFC (R108). -/
def execUnmappedC0 (a : Access) (_q : BitVec 4) (s : State) : StepOutcome := .next (raiseBusError .unmapped a s)

end Sys2Proof.Machine
end

