-- ==== Sys2Proof/Machine/Commands.lean ====
section
/-! DEFINITION. Machine/Commands.lean: the meanings of the CMDW rows of the opcode table, the command words
(42_commands.md R77 to R82). Each is what the word does when it reaches CMD; the bus response to every CMD write is OK
(R76). -/

namespace Sys2Proof.Machine

/-- NOP (R79): legal while BUSY = 1. -/
def execNop (s : State) : StepOutcome := .next (runNop s)

/-- INIT (R80), dropped with ERR_BUSY while BUSY = 1 (R78). -/
def execInit (s : State) : StepOutcome := .next (whenIdle runInit s)

/-- COMPRESS (R81), dropped with ERR_BUSY while BUSY = 1 (R78). -/
def execCompress (s : State) : StepOutcome := .next (whenIdle runCompress s)

/-- LOAD_H (R82), dropped with ERR_BUSY while BUSY = 1 (R78). -/
def execLoadH (s : State) : StepOutcome := .next (whenIdle runLoadH s)

/-- The reserved opcodes 0x4..0x7 (R77). -/
def execIllegalOp47 (_low : BitVec 2) (s : State) : StepOutcome := .next (dropIllegal s)

/-- The reserved opcodes 0x8..0xF (R77). -/
def execIllegalOp8F (_low : BitVec 3) (s : State) : StepOutcome := .next (dropIllegal s)

/-- A word with v[31:4] ≠ 0, whatever OP is (R77). -/
def execIllegalRsvd (_rsvd : BitVec 28) (_op : BitVec 4) (s : State) : StepOutcome := .next (dropIllegal s)

end Sys2Proof.Machine
end

