-- ==== Sys2Proof/Machine/Registers.lean ====
section
/-! DEFINITION. Machine/Registers.lean: the meanings of the register transactions (42_commands.md R83 to R92). -/

namespace Sys2Proof.Machine

/-- RD_MSG (R83): MSG, not ML, also while BUSY = 1. -/
def execRdMsg (n : BitVec 4) (s : State) : StepOutcome := .next (answerRead (blockWord s.msg n) s)

/-- WR_MSG (R84): four bytes of MSG, also while BUSY = 1. -/
def execWrMsg (n : BitVec 4) (d : Word) (s : State) : StepOutcome :=
  .next (answerWrite (s.withMsg (setBlockWord s.msg n d)))

/-- RD_HASH (R85): HASH = μ⁻¹(H). -/
def execRdHash (n : BitVec 4) (s : State) : StepOutcome := .next (answerRead (blockWord (gridToBlock s.h) n) s)

/-- WR_HASH (R86): always BusError(read_only). -/
def execWrHash (_n : BitVec 4) (d : Word) (s : State) : StepOutcome :=
  .next (raiseBusError .readOnly (.write d) s)

/-- RD_CMD (R87): zero. -/
def execRdCmd (s : State) : StepOutcome := .next (answerRead cmdReadWord s)

/-- WR_CMD (R88): `cmd_write(d)`. -/
def execWrCmd (d : Word) (s : State) : StepOutcome := .next (cmdWrite d s)

/-- RD_STATUS (R89): the read clears nothing. -/
def execRdStatus (s : State) : StepOutcome := .next (answerRead s.status.word s)

/-- WR_STATUS (R90): write one to clear. -/
def execWrStatus (d : Word) (s : State) : StepOutcome :=
  .next (answerWrite (s.withStatus (s.status.clearBy d)))

/-- RD_INFO (R91): the constant. -/
def execRdInfo (s : State) : StepOutcome := .next (answerRead infoWord s)

/-- WR_INFO (R92): always BusError(read_only). -/
def execWrInfo (d : Word) (s : State) : StepOutcome := .next (raiseBusError .readOnly (.write d) s)

end Sys2Proof.Machine
end

