-- ==== Sys2Proof/Machine/Dispatch.lean ====
section
/-! DEFINITION. Machine/Dispatch.lean: one arm per constructor of Instr, each one call of its meaning. -/

namespace Sys2Proof.Machine

/-- The effect of one instruction on the block. -/
def exec (i : Instr) (s : State) : Host.Outcome State Fault Refusal :=
  match i with
  | .nop => Sys2Proof.Machine.execNop s
  | .init => Sys2Proof.Machine.execInit s
  | .compress => Sys2Proof.Machine.execCompress s
  | .loadH => Sys2Proof.Machine.execLoadH s
  | .illegalOp47 low => Sys2Proof.Machine.execIllegalOp47 low s
  | .illegalOp8F low => Sys2Proof.Machine.execIllegalOp8F low s
  | .illegalRsvd rsvd op => Sys2Proof.Machine.execIllegalRsvd rsvd op s
  | .misaligned01 a reg => Sys2Proof.Machine.execMisaligned01 a reg s
  | .misaligned10 a reg => Sys2Proof.Machine.execMisaligned10 a reg s
  | .misaligned11 a reg => Sys2Proof.Machine.execMisaligned11 a reg s
  | .rdMsg n => Sys2Proof.Machine.execRdMsg n s
  | .wrMsg n d => Sys2Proof.Machine.execWrMsg n d s
  | .rdHash n => Sys2Proof.Machine.execRdHash n s
  | .wrHash n d => Sys2Proof.Machine.execWrHash n d s
  | .rdCmd => Sys2Proof.Machine.execRdCmd s
  | .wrCmd d => Sys2Proof.Machine.execWrCmd d s
  | .rdStatus => Sys2Proof.Machine.execRdStatus s
  | .wrStatus d => Sys2Proof.Machine.execWrStatus d s
  | .rdInfo => Sys2Proof.Machine.execRdInfo s
  | .wrInfo d => Sys2Proof.Machine.execWrInfo d s
  | .unmapped8C a => Sys2Proof.Machine.execUnmapped8C a s
  | .unmapped90 a q => Sys2Proof.Machine.execUnmapped90 a q s
  | .unmappedA0 a q => Sys2Proof.Machine.execUnmappedA0 a q s
  | .unmappedC0 a q => Sys2Proof.Machine.execUnmappedC0 a q s

end Sys2Proof.Machine
end

