-- ==== Sys2Proof/Machine/Events.lean ====
section
/-! DEFINITION. Machine/Events.lean: what each input from outside does to the block, and a run of several
(00_scope.md R17: a host step is one access, an engine step is one tick; "Steps are atomic and interleave in any
order"). -/

namespace Sys2Proof.Machine

/-- The transaction at the port for an access at a window offset (30_encoding.md R52). -/
def runAccess (a : Access) (off : BitVec 8) (s : State) : StepOutcome := exec (decode (busx a off)) s

/-- A host access by host address on a window at `base` (20_memory.md R34, R41). -/
def runHostAccess (base : Nat) (a : Access) (address bytes : Nat) (s : State) : StepOutcome :=
  match windowOffset base address bytes with
  | .ok off => runAccess a off s
  | .error e => .refused e

/-- The effect of one input. It neither reads nor writes `inputs`. -/
def stepInput (i : Input) (s : State) : StepOutcome :=
  match i with
  | .packet p => exec (decode p) s
  | .hostAccess a address bytes => runHostAccess Config.base a address bytes s
  | .tick => engineTurn s
  | .reset => .next (resetBlock s)

/-- One step: the first planned input; with none planned, the engine's turn (70_reset_and_hazards.md R129: while BUSY
stays 1 a tick happens; log 3). -/
def stepPlanned (s : State) : StepOutcome :=
  match s.inputs with
  | [] => engineTurn s
  | i :: rest => stepInput i (s.withInputs rest)

/-- The effect of a list of inputs, one after the other, stopping at the first fault or refusal. -/
def runInputs : List Input → State → StepOutcome
  | [], s => .next s
  | i :: is, s =>
    match stepInput i s with
    | .next t => runInputs is t
    | .fault f => .fault f
    | .refused e => .refused e

/-- The state with an instruction's bits placed where the next step takes its input: in front of the planned inputs.
Bits that are no packet change nothing (logs 9 and 10). -/
def planWord (s : State) (nbits w : Nat) : State :=
  match Packet.ofBits nbits w with
  | .ok p => s.withInputs (.packet p :: s.inputs)
  | .error _ => s

end Sys2Proof.Machine
end

