-- ==== Sys2Proof/Machine/Step.lean ====
section
/-! DEFINITION. Machine/Step.lean: the one step function, and how a table word is placed for the next step. -/

namespace Sys2Proof.Machine

/-- One step of the machine: the first planned input, or the engine's turn when none is planned. -/
def step (s : State) : Host.Outcome State Fault Refusal := stepPlanned s

/-- `s` with an instruction's bits stored where `step` takes its next instruction from (log 10). -/
def State.withFetchWord (s : State) (nbits w : Nat) : State := planWord s nbits w

end Sys2Proof.Machine
end

