-- ==== Sys2Proof/Machine/HostProtocol.lean ====
section
/-! DEFINITION. Machine/HostProtocol.lean: the host's side. The pseudo-instructions of 30_encoding.md R54 and the
Streaming Digest Engine of 45_host_protocol.md R93 to R104, as host software that issues accesses to the block. They
"do not constrain the block". A schedule says how many engine turns fall before each STATUS read of a `wait` (log 19). -/

namespace Sys2Proof.Machine

/-! ### Accesses and pseudo-instructions (R54) -/

/-- The state after an input that does not stop the machine. -/
def applyInput (i : Input) (s : State) : Option State :=
  match stepInput i s with
  | .next t => some t
  | .fault _ => none
  | .refused _ => none

/-- `wr OFF, D`: MemWrite(OFF, 4, D). -/
def hostWrite (off : BitVec 8) (d : Word) (s : State) : Option State := applyInput (.packet (busx (.write d) off)) s

/-- `rd OFF -> X`: MemRead(OFF, 4), with the word it returns. -/
def hostRead (off : BitVec 8) (s : State) : Option (Word × State) := do
  let t ← applyInput (.packet (busx .read off)) s
  let rep ← t.reply
  let d ← rep.data
  return (d, t)

/-- `cmd NOP`, `cmd INIT`, `cmd COMPRESS`, `cmd LOAD_H` are writes of 0, 1, 2, 3 to CMD. -/
def hostCmd (v : Word) (s : State) : Option State := hostWrite cmdOffset v s

/-- `clrerr`: write 0x00000702 to STATUS. -/
def clrerr (s : State) : Option State := hostWrite statusOffset 0x00000702#32 s

/-- The sixteen register numbers in increasing order. -/
def registerNumbers : List (BitVec 4) :=
  [0#4, 1#4, 2#4, 3#4, 4#4, 5#4, 6#4, 7#4] ++ [8#4, 9#4, 10#4, 11#4, 12#4, 13#4, 14#4, 15#4]

/-- `ldmsg b`: sixteen writes of MSG in increasing n. -/
def ldmsg (b : Block) (s : State) : Option State :=
  registerNumbers.foldlM (fun t n => hostWrite (msgOffset n) (blockWord b n) t) s

/-- `rdhash -> d`: sixteen reads of HASH, each word's four bytes put into d. -/
def rdhash (s : State) : Option (Block × State) :=
  registerNumbers.foldlM (fun (d, t) n => do
    let (w, t') ← hostRead (hashOffset n) t
    return (setBlockWord d n w, t')) (zeroBlock, s)

/-- `k` turns of the engine. -/
def engineTurns : Nat → State → Option State
  | 0, s => some s
  | k + 1, s => applyInput .tick s >>= engineTurns k

/-- `wait`: read STATUS until bit 0 is 0. The schedule gives the engine turns before each read; a schedule that runs
out while BUSY = 1 is a wait that has not ended (93_implementation_defined.md U11). -/
def waitIdle : List Nat → State → Option State
  | [], _ => none
  | k :: schedule, s => do
    let t ← engineTurns k s
    let (w, u) ← hostRead statusOffset t
    if w.getLsbD 0 then waitIdle schedule u else return u

/-- `ldmsg blk; cmd COMPRESS; wait` (R96, R99). -/
def hostCompress (schedule : List Nat) (b : Block) (s : State) : Option State :=
  ldmsg b s >>= hostCmd 2#32 >>= waitIdle schedule

/-- `ldmsg x; cmd LOAD_H` (R94, R99). -/
def hostLoad (x : Block) (s : State) : Option State := ldmsg x s >>= hostCmd 3#32

/-! ### Padding (R97, R98) -/

/-- Byte `k` of the 256-bit length, most significant first: (L >> 8·(31 − k))[7:0] (R98). -/
def be256Byte (len : BitVec 256) (k : Nat) : Byte := len.extractLsb' (8 * (31 - k)) 8

/-- The length as 32 bytes, most significant first (R98). -/
def be256 (len : BitVec 256) : List Byte := (List.range 32).map (be256Byte len)

/-- How many zero bytes follow the marker when `n` bytes precede them: the least number that makes the length 32 mod 64
(R98's loop, in closed form; log 20). -/
def padZeros (n : Nat) : Nat := (96 - n % 64) % 64

/-- The padding of a buffered tail: the tail, the marker 0x80, zeros, the length (R98). -/
def padTail (tail : List Byte) (len : BitVec 256) : List Byte :=
  tail ++ [0x80#8] ++ List.replicate (padZeros (tail.length + 1)) 0#8 ++ be256 len

/-- The first 64 bytes of a byte list as a block (log 21: it is only applied to lists that have them). -/
def blockOfList (l : List Byte) : Block := Vector.ofFn fun k => l.getD k.val 0#8

/-- `n` successive 64-byte blocks of a byte list. -/
def blocksOf : Nat → List Byte → List Block
  | 0, _ => []
  | n + 1, l => blockOfList l :: blocksOf n (l.drop 64)

/-- Every whole 64-byte block of a byte list, in order. -/
def wholeBlocks (l : List Byte) : List Block := blocksOf (l.length / 64) l

/-- The whole-message function (R104): f iterated from zero over the blocks of the message followed by the padding of
its last n mod 64 bytes, with the length 8·n mod 2^256. -/
def whirlpool (x : List Byte) : Block :=
  let q := x.length / 64
  let padded := x.take (64 * q) ++ padTail (x.drop (64 * q)) (BitVec.ofNat 256 (8 * x.length))
  (wholeBlocks padded).foldl compressBlock zeroBlock

/-! ### The Streaming Digest Engine (R93 to R103) -/

/-- Where an engine's chaining value is: in the block's H, or in a 64-byte snapshot the host holds (R93). -/
inductive Residence where
  | resident
  | saved (h : Block)
  deriving DecidableEq, Repr

/-- A host-side engine: 0..63 buffered bytes between operations, the 256-bit bit counter, and where its chaining value
is (R93). -/
structure Engine where
  buf   : List Byte
  count : BitVec 256
  home  : Residence
  deriving DecidableEq, Repr

/-- Whether an engine's chaining value is the block's H (R93). -/
def Engine.isResident (e : Engine) : Bool := e.home == .resident

/-- Consume `n` whole blocks of the buffer (the loop of R96): each is compressed and counts 512 bits. -/
def consumeBlocks (schedule : List Nat) : Nat → Engine → State → Option (Engine × State)
  | 0, e, s => some (e, s)
  | n + 1, e, s => do
    let t ← hostCompress schedule (blockOfList e.buf) s
    consumeBlocks schedule n { e with buf := e.buf.drop 64, count := e.count + 512#256 } t

/-- `update(E, b)` (R96): append, then compress every whole block. E must be resident. -/
def Engine.update (e : Engine) (schedule : List Nat) (b : List Byte) (s : State) : Option (Engine × State) :=
  match e.home with
  | .resident =>
    let e' := { e with buf := e.buf ++ b }
    consumeBlocks schedule (e'.buf.length / 64) e' s
  | .saved _ => none

/-- L(E) = (E.count + 8·|E.buf|) mod 2^256 (R97). -/
def Engine.bitLength (e : Engine) : BitVec 256 := e.count + BitVec.ofNat 256 (8 * e.buf.length)

/-- Compress blocks in order. -/
def compressAll (schedule : List Nat) (bs : List Block) (s : State) : Option State :=
  bs.foldlM (fun t b => hostCompress schedule b t) s

/-- `digest(E)` (R99): snapshot H, compress the padding's blocks, read the digest, restore H. E must be resident and
is not changed. -/
def Engine.digest (e : Engine) (schedule : List Nat) (s : State) : Option (Block × State) :=
  match e.home with
  | .resident => do
    let (snapshot, t) ← rdhash s
    let u ← compressAll schedule (wholeBlocks (padTail e.buf e.bitLength)) t
    let (d, v) ← rdhash u
    let w ← hostLoad snapshot v
    return (d, w)
  | .saved _ => none

/-- One lowercase hexadecimal digit (R100). -/
def hexDigit (v : BitVec 4) : Char := nibbleAt
  #v['0', '1', '2', '3', '4', '5', '6', '7', '8', '9', 'a', 'b', 'c', 'd', 'e', 'f'] v

/-- Two hexadecimal digits of a byte, the high nibble first (R100). -/
def hexByte (x : Byte) : List Char := [hexDigit (x.extractLsb' 4 4), hexDigit (x.extractLsb' 0 4)]

/-- The 128 hexadecimal digits of a digest (R100). -/
def hexOfBlock (d : Block) : String := String.ofList (d.toList.flatMap hexByte)

/-- `hexdigest(E)` (R100). -/
def Engine.hexdigest (e : Engine) (schedule : List Nat) (s : State) : Option (String × State) := do
  let (d, t) ← e.digest schedule s
  return (hexOfBlock d, t)

/-- `copy(E)` (R101): a new engine with E's buffer and count and a snapshot of H; E stays resident. It requires
BUSY = 0. -/
def Engine.copy (e : Engine) (s : State) : Option (Engine × State) :=
  match e.home, s.status.busy with
  | .resident, false => do
    let (snapshot, t) ← rdhash s
    return ({ e with home := .saved snapshot }, t)
  | _, _ => none

/-! ### Engines that share one block (R93, R94, R95): a list of engines, "At most one engine is resident" (log 27) -/

/-- Save an engine's H if it is resident, `rdhash -> E'.h`, which requires BUSY = 0 (R94); another one needs nothing. -/
def Engine.save (e : Engine) (s : State) : Option (Engine × State) :=
  match e.home, s.status.busy with
  | .resident, false => do
    let (snapshot, t) ← rdhash s
    return ({ e with home := .saved snapshot }, t)
  | .resident, true => none
  | .saved _, _ => some (e, s)

/-- Save whichever engine of the list is resident (R94). -/
def saveEngines : List Engine → State → Option (List Engine × State)
  | [], s => some ([], s)
  | e :: es, s => do
    let (e', t) ← e.save s
    let (es', u) ← saveEngines es t
    return (e' :: es', u)

/-- A fresh engine: an empty buffer, a zero count, resident (R95). -/
def freshEngine : Engine := { buf := [], count := 0#256, home := .resident }

/-- `new()` without initial bytes, beside the engines `es`: INIT, and the new engine at the end of the list (R95). R95
leaves open what becomes of the engine that was resident. DESIGN CHOICE: the host saves its H before the INIT, as R94 has
it do before a LOAD_H, so that "At most one engine is resident" (R93) and no engine's chaining value is lost (log 28). -/
def newEngine (es : List Engine) (s : State) : Option (List Engine × State) := do
  let (es', t) ← saveEngines es s
  let u ← hostCmd 1#32 t
  return (es' ++ [freshEngine], u)

/-- `update` of engine number `n` (R96). -/
def updateAt (schedule : List Nat) (n : Nat) (b : List Byte) (es : List Engine) (s : State) :
    Option (List Engine × State) := do
  let e ← es[n]?
  let (e', t) ← e.update schedule b s
  return (es.set n e', t)

/-- `new(initial)`: the engine is seeded by an implicit first update (R95). -/
def newEngineWith (schedule : List Nat) (initial : List Byte) (es : List Engine) (s : State) :
    Option (List Engine × State) := do
  let (es', t) ← newEngine es s
  updateAt schedule es.length initial es' t

/-- `digest` of engine number `n` (R99): no engine changes. -/
def digestAt (schedule : List Nat) (n : Nat) (es : List Engine) (s : State) : Option (Block × State) := do
  let e ← es[n]?
  e.digest schedule s

/-- `copy` of engine number `n`: the copy, not resident, at the end of the list (R101). -/
def copyAt (n : Nat) (es : List Engine) (s : State) : Option (List Engine × State) := do
  let e ← es[n]?
  let (e2, t) ← e.copy s
  return (es ++ [e2], t)

/-- `make_resident` of engine number `n` (R94): if it is not resident, save the one that is, then `ldmsg E.h; cmd LOAD_H`.
Both require BUSY = 0. -/
def makeResidentAt (n : Nat) (es : List Engine) (s : State) : Option (List Engine × State) := do
  let e ← es[n]?
  match e.home, s.status.busy with
  | .resident, _ => return (es, s)
  | .saved x, false => do
    let (es', t) ← saveEngines es s
    let u ← hostLoad x t
    return (es'.set n { e with home := .resident }, u)
  | .saved _, true => none

/-- An operation of a host on the engines that share a block. -/
inductive HostOp where
  | new
  | newWith (initial : List Byte)
  | update (n : Nat) (b : List Byte)
  | digest (n : Nat)
  | copy (n : Nat)
  | makeResident (n : Nat)
  deriving DecidableEq, Repr

/-- The engines and the block after an operation. -/
def runHostOp (schedule : List Nat) (op : HostOp) (es : List Engine) (s : State) : Option (List Engine × State) :=
  match op with
  | .new => newEngine es s
  | .newWith initial => newEngineWith schedule initial es s
  | .update n b => updateAt schedule n b es s
  | .digest n => do
    let (_, t) ← digestAt schedule n es s
    return (es, t)
  | .copy n => copyAt n es s
  | .makeResident n => makeResidentAt n es s

/-! ### Sizes (R102) -/

/-- `digest_size(E)`, INFO bits 7:0 (R102). -/
def digestSize (s : State) : Option (Nat × State) := do
  let (w, t) ← hostRead infoOffset s
  return ((w.extractLsb' 0 8).toNat, t)

/-- `block_size(E)`, INFO bits 15:8 (R102). -/
def blockSize (s : State) : Option (Nat × State) := do
  let (w, t) ← hostRead infoOffset s
  return ((w.extractLsb' 8 8).toNat, t)

/-- The host API's one failure: "an 'attribute is read-only' kind of error" (R102, 42_commands.md R92). -/
inductive ApiError where
  | readOnlyAttribute
  deriving DecidableEq, Repr

/-- An attempt to assign `digest_size` or `block_size` is rejected by the host API; no access is made (R102). -/
def assignSize (_value : Nat) : Except ApiError Unit := .error .readOnlyAttribute

end Sys2Proof.Machine
end

