-- ==== Sys2Proof/Machine/Instances.lean ====
section
/-! DEFINITION. Machine/Instances.lean: several WPC instances in one system, "Each has its own window at its own BASE
and all the state of" R19, and "They share nothing" (60_exceptions.md R118, 20_memory.md R44; log 22). -/

namespace Sys2Proof.Machine

/-- One instance of a system: BASE is 256 · page (00_scope.md R10). -/
structure Placed where
  page  : Nat
  block : State
  deriving DecidableEq, Repr

/-- What happens in a system: a host access by host address, or a tick or a reset of one instance by number. -/
inductive SystemEvent where
  | hostAccess (a : Access) (address : Nat) (bytes : Nat)
  | tick (number : Nat)
  | reset (number : Nat)
  deriving DecidableEq, Repr

/-- Whether a host address lies in an instance's window (R34). -/
def Placed.holds (p : Placed) (address : Nat) : Bool := p.page == address / 256

/-- The number of the first instance whose window holds the address. -/
def ownerOf (address : Nat) (sys : List Placed) : Option Nat := sys.findIdx? fun p => p.holds address

/-- The outcome of an event for the one instance it concerns. -/
def placedStep (e : SystemEvent) (p : Placed) : StepOutcome :=
  match e with
  | .hostAccess a address bytes => runHostAccess (256 * p.page) a address bytes p.block
  | .tick _ => engineTurn p.block
  | .reset _ => .next (resetBlock p.block)

/-- Which instance an event concerns. -/
def SystemEvent.target (e : SystemEvent) (sys : List Placed) : Option Nat :=
  match e with
  | .hostAccess _ address _ => ownerOf address sys
  | .tick j => some j
  | .reset j => some j

/-- One event of a system: the instance it concerns steps, every other one is as it was. An event that concerns no
instance is refused. -/
def systemStep (e : SystemEvent) (sys : List Placed) : Host.Outcome (List Placed) Fault Refusal :=
  match e.target sys with
  | none => .refused .outsideWindow
  | some j =>
    match sys[j]? with
    | none => .refused .outsideWindow
    | some p =>
      match placedStep e p with
      | .next t => .next (sys.set j { p with block := t })
      | .fault f => .fault f
      | .refused x => .refused x

end Sys2Proof.Machine
end

