-- ==== Sys2Proof/Safety.lean ====
section
/-! DEFINITION. Safety.lean: the predicates the statements are made of: the engine's invariant, an in-flight COMPRESS,
at most one resident engine, what a host can tell apart, and which inputs bring which instruction. -/

namespace Sys2Proof.Machine

/-- The engine's invariant (10_state.md R29, 41_compression.md R74): r is at most 10; and while BUSY = 1, r is below 10,
DONE is 0, and K, WS are the round key and the cipher state after r rounds for the chaining value H and the latched ML. -/
def EngineInv (s : State) : Prop :=
  s.r.toNat ≤ 10 ∧
    (s.status.busy = true →
      s.r.toNat < 10 ∧ s.status.done = false ∧ s.k = roundKey s.h s.r.toNat ∧
        s.ws = cipherState s.h s.ml s.r.toNat)

/-- A COMPRESS accepted with H = h0 and MSG = m is in flight after `ticks` ticks: R74's equations before tick 10. -/
def InFlight (h0 : Grid) (m : Block) (ticks : Nat) (s : State) : Prop :=
  s.status.busy = true ∧ ticks < 10 ∧ s.r.toNat = ticks ∧ s.k = roundKey h0 ticks ∧
    s.ws = cipherState h0 (blockToGrid m) ticks ∧ s.ml = blockToGrid m ∧ s.h = h0

/-- "At most one engine is resident in one WPC instance at a time" (45_host_protocol.md R93). -/
def OneResident (es : List Engine) : Prop := es.countP Engine.isResident ≤ 1

/-- Two states a host can't tell apart: they agree on everything but the hidden state, and on that too while a COMPRESS
is in flight (10_state.md R28: it affects "what the host sees only through H at the final tick"). -/
def HostEqual (a b : State) : Prop :=
  a.msg = b.msg ∧ a.h = b.h ∧ a.status = b.status ∧ a.reply = b.reply ∧ a.inputs = b.inputs ∧
    (a.status.busy = true → a.k = b.k ∧ a.ws = b.ws ∧ a.ml = b.ml ∧ a.r = b.r)

/-- The hidden state is as it was (10_state.md R28, R29). -/
def SameHidden (s t : State) : Prop := t.k = s.k ∧ t.ws = s.ws ∧ t.ml = s.ml ∧ t.r = s.r

/-- The instruction an input brings to the block, if it brings one: a tick and a reset bring none, nor does a host
access that is refused. -/
def Input.instr : Input → Option Instr
  | .packet p => some (decode p)
  | .hostAccess a address bytes =>
    match windowOffset Config.base address bytes with
    | .ok off => some (decode (busx a off))
    | .error _ => none
  | .tick => none
  | .reset => none

/-- The word an instruction brings to CMD: a command word itself, or the data of a write at offset 0x80
(30_encoding.md R48, R52). -/
def wordToCmd (i : Instr) : Option Word :=
  match encode i with
  | .cmdw v => some v
  | .busx code d => if code = 0x180#9 then some d else none

/-- The word an input brings to CMD. -/
def Input.commandWord (i : Input) : Option Word := i.instr.bind wordToCmd

/-- The data an input writes to STATUS, if it writes STATUS (30_encoding.md R52: code 0x184). -/
def Input.statusWrite (i : Input) : Option Word :=
  match i.instr with
  | some (.wrStatus d) => some d
  | _ => none

/-- An illegal command word (30_encoding.md R51). -/
def illegalWord (v : Word) : Prop := v.extractLsb' 4 28 ≠ 0#28 ∨ 4 ≤ (v.extractLsb' 0 4).toNat

/-- The tenth tick of a COMPRESS: a tick while BUSY = 1 with nine rounds done (41_compression.md R72, R73). -/
def Input.isFinalTick (i : Input) (s : State) : Prop := i = .tick ∧ s.status.busy = true ∧ s.r = 9#4

/-- A register access the block refuses with a bus error: misaligned, unmapped, or a write to a read-only register
(20_memory.md R36). -/
def refusedOffset (a : Access) (off : BitVec 8) : Prop :=
  off.toNat % 4 ≠ 0 ∨ 0x8C ≤ off.toNat ∨
    (a ≠ .read ∧ (0x40 ≤ off.toNat ∧ off.toNat ≤ 0x7C ∨ off.toNat = 0x88))

end Sys2Proof.Machine
end

