-- ==== Sys2Proof/Certificates/Slice0/Obligations.lean ====
section
/-! DEFINITION. Certificates/Slice0/Obligations.lean: the statements for the provers. Each docstring names the rules of
spec/ it rests on and, where it uses one, the log entry of a choice of the model's. -/

open Sys2Proof Sys2Proof.Machine

/-! ### Encoding -/

/-- 30_encoding.md R48, R50, R52: no bit of an instruction's encoding is dropped. -/
def Obligations.DecodeOfEncodeIsIdentity : Prop :=
  ∀ i : Instr, i.wf = true → decode (encode i) = i

/-- 30_encoding.md R50, R51, R52: every command word and every transaction code is the encoding of the well-formed
instruction it decodes to. A read has no D (log 13), so its data comes back as zero. -/
def Obligations.EncodeOfDecodeIsIdentity : Prop :=
  (∀ v : Word, (decodeCmdw v).wf = true ∧ encode (decodeCmdw v) = .cmdw v) ∧
  (∀ (code : BitVec 9) (d : Word), (decodeBusx code d).wf = true ∧
    encode (decodeBusx code d) = .busx code (if code.getLsbD 8 = true then d else 0#32))

/-- 30_encoding.md R53, against the rows of spec/opcode_table.json: each packet is selected by its own row and by no
other. -/
def Obligations.EveryPacketSelectsExactlyOneRow : Prop :=
  opcodeTable.length = 24 ∧
  ∀ (p : Packet) (j : Nat) (row : Row), opcodeTable[j]? = some row →
    (row.selects p = true ↔ j = (decode p).rowIndex.val)

/-- Words written out from the tables of 30_encoding.md R50 and R52. -/
def Obligations.SpecWordsDecode : Prop :=
  decode (.cmdw 0x00000002#32) = .compress ∧
  decode (.cmdw 0x00000007#32) = .illegalOp47 3#2 ∧
  decode (.cmdw 0x0000000D#32) = .illegalOp8F 5#3 ∧
  decode (.cmdw 0x00000010#32) = .illegalRsvd 1#28 0#4 ∧
  decode (.busx 0b000111100#9 0#32) = .rdMsg 15#4 ∧
  decode (.busx 0b100000100#9 0xAABBCCDD#32) = .wrMsg 1#4 0xAABBCCDD#32 ∧
  decode (.busx 0b001000000#9 0#32) = .rdHash 0#4 ∧
  decode (.busx 0b110000000#9 2#32) = .wrCmd 2#32 ∧
  decode (.busx 0b010000100#9 0#32) = .rdStatus ∧
  decode (.busx 0b110001000#9 7#32) = .wrInfo 7#32 ∧
  decode (.busx 0b010000010#9 0#32) = .misaligned10 .read 0x20#6 ∧
  decode (.busx 0b010001100#9 0#32) = .unmapped8C .read ∧
  decode (.busx 0b111111100#9 1#32) = .unmappedC0 (.write 1#32) 15#4

/-- A step runs the decoded instruction: `step` takes the first planned input (log 1) and runs `exec` on the rest of the
state; a word placed by `withFetchWord` is the next instruction (log 10). -/
def Obligations.StepRunsPlannedInstruction : Prop :=
  (∀ (s : State) (p : Packet) (rest : List Input), s.inputs = .packet p :: rest →
    step s = exec (decode p) { s with inputs := rest }) ∧
  (∀ (s : State) (nbits w : Nat) (i : Instr), decodeTableWord nbits w = some i →
    step (s.withFetchWord nbits w) = exec i s)

/-- A run of planned inputs by `step` is `runInputs`, whatever is planned after them; what is planned is not touched by
an input's effect (log 1). -/
def Obligations.RunInputsIsStepping : Prop :=
  ∀ (is rest : List Input) (s t : State),
    runInputs is s = .next t ↔
      (t.inputs = s.inputs ∧
        Host.Core.run Sys2Proof.core is.length { s with inputs := is ++ rest } = .next { t with inputs := rest })

/-! ### Commands -/

/-- 42_commands.md R79. -/
def Obligations.NopChangesNothing : Prop :=
  decode (.cmdw 0x00000000#32) = .nop ∧
  ∀ s : State, exec .nop s = .next { s with reply := some ⟨.ok, none, none⟩ }

/-- 42_commands.md R80. -/
def Obligations.InitZeroesChainingValue : Prop :=
  decode (.cmdw 0x00000001#32) = .init ∧
  ∀ s : State, s.status.busy = false →
    ∃ t : State, exec .init s = .next t ∧ (∀ i j : Fin 8, t.h[i][j] = 0#8) ∧
      t = { s with h := t.h, status := { s.status with done := true }, reply := some ⟨.ok, none, none⟩ }

/-- 41_compression.md R71, 42_commands.md R81: what acceptance of COMPRESS loads, and that it changes nothing else. -/
def Obligations.CompressAcceptanceLoadsPipeline : Prop :=
  decode (.cmdw 0x00000002#32) = .compress ∧
  ∀ s : State, s.status.busy = false →
    ∃ t : State, exec .compress s = .next t ∧
      (∀ (i j : Fin 8) (k : Fin 64), k.val = 8 * i.val + j.val →
        t.ml[i][j] = s.msg[k] ∧ t.ws[i][j] = s.msg[k] ^^^ s.h[i][j]) ∧
      t = { s with ml := t.ml, k := s.h, ws := t.ws, r := 0#4,
                   status := { s.status with busy := true, done := false }, reply := some ⟨.ok, none, none⟩ }

/-- 42_commands.md R82. -/
def Obligations.LoadHCopiesMessage : Prop :=
  decode (.cmdw 0x00000003#32) = .loadH ∧
  ∀ s : State, s.status.busy = false →
    ∃ t : State, exec .loadH s = .next t ∧
      (∀ (i j : Fin 8) (k : Fin 64), k.val = 8 * i.val + j.val → t.h[i][j] = s.msg[k]) ∧
      t = { s with h := t.h, status := { s.status with done := true }, reply := some ⟨.ok, none, none⟩ }

/-- 42_commands.md R78: dropped, not queued; the in-flight COMPRESS, MSG, H and DONE are untouched. -/
def Obligations.ValidCommandWhileBusyIsDropped : Prop :=
  ∀ (s : State) (v : Word) (i : Instr), s.status.busy = true →
    (v = 1#32 ∧ i = .init) ∨ (v = 2#32 ∧ i = .compress) ∨ (v = 3#32 ∧ i = .loadH) →
    decode (.cmdw v) = i ∧
    exec i s = .next { s with status := { s.status with errBusy := true },
                              reply := some ⟨.ok, none, some .busyCmd⟩ }

/-- 42_commands.md R77: the three illegal rows and every illegal word, in every state. -/
def Obligations.IllegalCommandSetsErrCmdOnly : Prop :=
  ∀ (s : State) (v : Word) (low2 : BitVec 2) (low3 : BitVec 3) (rsvd : BitVec 28) (op : BitVec 4) (i : Instr),
    i = .illegalOp47 low2 ∨ i = .illegalOp8F low3 ∨ i = .illegalRsvd rsvd op ∨
      (illegalWord v ∧ i = decode (.cmdw v)) →
    exec i s = .next { s with status := { s.status with errCmd := true },
                              reply := some ⟨.ok, none, some .illegalCmd⟩ }

/-- 42_commands.md R76, R88: a write of CMD runs the checks in order, illegal, NOP, busy, and then the command. The
effects are given whole, so this is also where WR_CMD completes. -/
def Obligations.CmdWriteChecksInOrder : Prop :=
  ∀ (v : Word) (s : State),
    decode (busx (.write v) 0x80#8) = .wrCmd v ∧
    (illegalWord v → exec (.wrCmd v) s =
      .next { s with status := { s.status with errCmd := true }, reply := some ⟨.ok, none, some .illegalCmd⟩ }) ∧
    (v = 0#32 → exec (.wrCmd v) s = .next { s with reply := some ⟨.ok, none, none⟩ }) ∧
    (v = 1#32 ∨ v = 2#32 ∨ v = 3#32 → s.status.busy = true → exec (.wrCmd v) s =
      .next { s with status := { s.status with errBusy := true }, reply := some ⟨.ok, none, some .busyCmd⟩ }) ∧
    (s.status.busy = false →
      (v = 1#32 → exec (.wrCmd v) s =
        .next { s with h := zeroGrid, status := { s.status with done := true }, reply := some ⟨.ok, none, none⟩ }) ∧
      (v = 2#32 → exec (.wrCmd v) s =
        .next { s with ml := blockToGrid s.msg, k := s.h, ws := gridXor (blockToGrid s.msg) s.h, r := 0#4,
                       status := { s.status with busy := true, done := false },
                       reply := some ⟨.ok, none, none⟩ }) ∧
      (v = 3#32 → exec (.wrCmd v) s =
        .next { s with h := blockToGrid s.msg, status := { s.status with done := true },
                       reply := some ⟨.ok, none, none⟩ }))

/-- 42_commands.md R88 with 30_encoding.md R50, R51: writing any word to CMD does what the command word's own row does
(log 11). -/
def Obligations.CmdWriteRunsTheCommandWord : Prop :=
  ∀ (v : Word) (s : State), exec (.wrCmd v) s = exec (decodeCmdw v) s

/-! ### Register transactions -/

/-- 42_commands.md R83, 20_memory.md R37: byte 4n + l of MSG is in bits 8l + 7..8l; nothing but the reply changes. -/
def Obligations.ReadMsgReturnsLittleEndianLanes : Prop :=
  ∀ (n : BitVec 4) (s : State), decode (busx .read (BitVec.ofNat 8 (4 * n.toNat))) = .rdMsg n ∧ ∃ d : Word,
    exec (.rdMsg n) s = .next { s with reply := some ⟨.ok, some d, none⟩ } ∧
    ∀ (l : Fin 4) (k : Fin 64), k.val = 4 * n.toNat + l.val → d.extractLsb' (8 * l.val) 8 = s.msg[k]

/-- 42_commands.md R84: the four bytes of MSG_n, every other byte of MSG and everything else as before, in every state,
BUSY or not. -/
def Obligations.WriteMsgSetsFourBytes : Prop :=
  ∀ (n : BitVec 4) (d : Word) (s : State),
    decode (busx (.write d) (BitVec.ofNat 8 (4 * n.toNat))) = .wrMsg n d ∧ ∃ t : State,
    exec (.wrMsg n d) s = .next t ∧
    (∀ k : Fin 64, t.msg[k] =
      if k.val / 4 = n.toNat then d.extractLsb' (8 * (k.val % 4)) 8 else s.msg[k]) ∧
    t = { s with msg := t.msg, reply := some ⟨.ok, none, none⟩ }

/-- 42_commands.md R84 then R83: a word written to MSG_n reads back, and every other MSG word reads as before. -/
def Obligations.WrittenMsgWordReadsBack : Prop :=
  ∀ (n m : BitVec 4) (d : Word) (s t : State), exec (.wrMsg n d) s = .next t →
    ∃ u : State, exec (.rdMsg m) t = .next u ∧
      u.reply = some ⟨.ok, some (if m = n then d else blockWord s.msg m), none⟩

/-- 42_commands.md R85: HASH[8i + j] = H[i][j], in little-endian lanes. -/
def Obligations.ReadHashReturnsChainingValue : Prop :=
  ∀ (n : BitVec 4) (s : State),
    decode (busx .read (BitVec.ofNat 8 (0x40 + 4 * n.toNat))) = .rdHash n ∧ ∃ d : Word,
    exec (.rdHash n) s = .next { s with reply := some ⟨.ok, some d, none⟩ } ∧
    ∀ (l : Fin 4) (i j : Fin 8), 8 * i.val + j.val = 4 * n.toNat + l.val →
      d.extractLsb' (8 * l.val) 8 = s.h[i][j]

/-- 42_commands.md R86, R92: a write to HASH or INFO, whatever the value, is refused; H and all else stay. -/
def Obligations.ReadOnlyWritesRaiseBusError : Prop :=
  ∀ (n : BitVec 4) (d : Word) (s : State) (off : BitVec 8) (i : Instr),
    (off = BitVec.ofNat 8 (0x40 + 4 * n.toNat) ∧ i = .wrHash n d) ∨ (off = 0x88#8 ∧ i = .wrInfo d) →
    decode (busx (.write d) off) = i ∧
    exec i s = .next { s with status := { s.status with errBus := true },
                              reply := some ⟨.busErr, none, some .readOnly⟩ }

/-- 42_commands.md R89: the five flags at their bits, every other bit zero, nothing cleared. -/
def Obligations.StatusReadShowsFlags : Prop :=
  decode (busx .read 0x84#8) = .rdStatus ∧ ∀ s : State, ∃ d : Word,
    exec .rdStatus s = .next { s with reply := some ⟨.ok, some d, none⟩ } ∧
    d.getLsbD 0 = s.status.busy ∧ d.getLsbD 1 = s.status.done ∧ d.getLsbD 8 = s.status.errCmd ∧
    d.getLsbD 9 = s.status.errBusy ∧ d.getLsbD 10 = s.status.errBus ∧
    ∀ k : Nat, k ≠ 0 → k ≠ 1 → k ≠ 8 → k ≠ 9 → k ≠ 10 → d.getLsbD k = false

/-- 42_commands.md R90: write one to clear; BUSY and the reserved bits ignore the write. -/
def Obligations.StatusWriteClearsOnes : Prop :=
  ∀ (d : Word) (s : State), decode (busx (.write d) 0x84#8) = .wrStatus d ∧
    exec (.wrStatus d) s = .next { s with
      status := { busy := s.status.busy,
                  done := s.status.done && !d.getLsbD 1,
                  errCmd := s.status.errCmd && !d.getLsbD 8,
                  errBusy := s.status.errBusy && !d.getLsbD 9,
                  errBus := s.status.errBus && !d.getLsbD 10 },
      reply := some ⟨.ok, none, none⟩ }

/-- 42_commands.md R87, R91, 10_state.md R26: CMD reads as zero; INFO reads as its constant, with its three fields. -/
def Obligations.CmdAndInfoReadConstants : Prop :=
  decode (busx .read 0x80#8) = .rdCmd ∧ decode (busx .read 0x88#8) = .rdInfo ∧
  (∀ s : State, exec .rdCmd s = .next { s with reply := some ⟨.ok, some 0x00000000#32, none⟩ }) ∧
  (∀ s : State, exec .rdInfo s = .next { s with reply := some ⟨.ok, some 0x000A4040#32, none⟩ }) ∧
  (0x000A4040#32).extractLsb' 0 8 = 64#8 ∧ (0x000A4040#32).extractLsb' 8 8 = 64#8 ∧
  (0x000A4040#32).extractLsb' 16 8 = 10#8 ∧ (0x000A4040#32).extractLsb' 24 8 = 0#8

/-- 60_exceptions.md R109 for the rows that refuse an access, reads and writes: ERR_BUS, BUS_ERR, zero read data, and
nothing else. -/
def Obligations.RefusedRowsRaiseBusError : Prop :=
  ∀ (s : State) (a : Access) (reg : BitVec 6) (q2 : BitVec 2) (q3 : BitVec 3) (q4 : BitVec 4),
    let refusal (c : Cause) : StepOutcome :=
      .next { s with status := { s.status with errBus := true },
                     reply := some ⟨.busErr, if a = .read then some 0x00000000#32 else none, some c⟩ }
    exec (.misaligned01 a reg) s = refusal .misaligned ∧
    exec (.misaligned10 a reg) s = refusal .misaligned ∧
    exec (.misaligned11 a reg) s = refusal .misaligned ∧
    exec (.unmapped8C a) s = refusal .unmapped ∧
    exec (.unmapped90 a q2) s = refusal .unmapped ∧
    exec (.unmappedA0 a q3) s = refusal .unmapped ∧
    exec (.unmappedC0 a q4) s = refusal .unmapped

/-- 20_memory.md R36, R40, 60_exceptions.md R108, R111: the checks of an access, in order, by its offset; an access that
passes them answers OK and does not set ERR_BUS. -/
def Obligations.AccessFollowsCheckOrder : Prop :=
  ∀ (a : Access) (off : BitVec 8) (s : State),
    let refusal (c : Cause) : StepOutcome :=
      .next { s with status := { s.status with errBus := true },
                     reply := some ⟨.busErr, if a = .read then some 0x00000000#32 else none, some c⟩ }
    (off.toNat % 4 ≠ 0 → runAccess a off s = refusal .misaligned) ∧
    (off.toNat % 4 = 0 → 0x8C ≤ off.toNat → runAccess a off s = refusal .unmapped) ∧
    (off.toNat % 4 = 0 → off.toNat < 0x8C → a ≠ .read →
      (0x40 ≤ off.toNat ∧ off.toNat ≤ 0x7C) ∨ off.toNat = 0x88 → runAccess a off s = refusal .readOnly) ∧
    (¬ refusedOffset a off → ∃ (t : State) (data : Option Word) (cause : Option Cause),
      runAccess a off s = .next t ∧ t.reply = some ⟨.ok, data, cause⟩ ∧
      (t.status.errBus = true → s.status.errBus = true))

/-- 20_memory.md R42: no read has a side effect. A mapped, aligned read changes the reply alone. -/
def Obligations.ReadsHaveNoSideEffect : Prop :=
  ∀ (off : BitVec 8) (s : State), off.toNat % 4 = 0 → off.toNat < 0x8C →
    ∃ d : Word, runAccess .read off s = .next { s with reply := some ⟨.ok, some d, none⟩ }

/-- 60_exceptions.md R111: one instruction sets at most one error flag, and an error leaves the hidden state, BUSY, H
and MSG as they were (R113). -/
def Obligations.OneErrorFlagPerAccess : Prop :=
  ∀ (i : Instr) (s : State), ∃ t : State, exec i s = .next t ∧
    (∀ c : Cause, t.reply.bind Reply.cause = some c →
      (t.status = { s.status with errBus := true } ∨ t.status = { s.status with errCmd := true } ∨
        t.status = { s.status with errBusy := true }) ∧
      t.msg = s.msg ∧ t.h = s.h ∧ SameHidden s t) ∧
    (t.reply.bind Reply.cause = none → (t.status.errBus = true → s.status.errBus = true) ∧
      (t.status.errCmd = true → s.status.errCmd = true) ∧ (t.status.errBusy = true → s.status.errBusy = true))

/-! ### Whole-machine rules: who writes what -/

/-- 10_state.md R21: only reset, INIT, LOAD_H and the final tick of a COMPRESS write H. -/
def Obligations.ChainingValueWriters : Prop :=
  ∀ (i : Input) (s t : State), stepInput i s = .next t →
    t.h = s.h ∨ i = .reset ∨ i.isFinalTick s ∨
      (s.status.busy = false ∧ (i.commandWord = some 1#32 ∨ i.commandWord = some 3#32))

/-- 10_state.md R20: only a WR_MSG and reset write MSG; "The core never writes it". -/
def Obligations.MessageWriters : Prop :=
  ∀ (i : Input) (s t : State), stepInput i s = .next t →
    t.msg = s.msg ∨ i = .reset ∨ ∃ (n : BitVec 4) (d : Word), i.instr = some (.wrMsg n d)

/-- 10_state.md R28, R29: K, WS, ML and r are written only by acceptance of COMPRESS, by ticks, and by reset. -/
def Obligations.HiddenStateWriters : Prop :=
  ∀ (i : Input) (s t : State), stepInput i s = .next t →
    SameHidden s t ∨ i = .reset ∨ (i = .tick ∧ s.status.busy = true) ∨
      (s.status.busy = false ∧ i.commandWord = some 2#32)

/-- 10_state.md R25: what sets and clears BUSY and DONE, and that the set wins for INIT and LOAD_H. -/
def Obligations.BusyAndDoneWriters : Prop :=
  ∀ (i : Input) (s t : State), stepInput i s = .next t →
    (s.status.busy = false → t.status.busy = true → i.commandWord = some 2#32) ∧
    (s.status.busy = true → t.status.busy = false → i = .reset ∨ i.isFinalTick s) ∧
    (s.status.done = false → t.status.done = true → i.isFinalTick s ∨
      (s.status.busy = false ∧ (i.commandWord = some 1#32 ∨ i.commandWord = some 3#32))) ∧
    (s.status.done = true → t.status.done = false → i = .reset ∨
      (s.status.busy = false ∧ i.commandWord = some 2#32) ∨
      ∃ d : Word, i.statusWrite = some d ∧ d.getLsbD 1 = true) ∧
    (s.status.busy = false → i.commandWord = some 1#32 ∨ i.commandWord = some 3#32 → t.status.done = true)

/-- 10_state.md R24, R25: what sets each error flag, and that only a W1C write of its bit and reset clear it. -/
def Obligations.ErrorFlagWriters : Prop :=
  ∀ (i : Input) (s t : State), stepInput i s = .next t →
    (s.status.errCmd = false → t.status.errCmd = true → ∃ v : Word, i.commandWord = some v ∧ illegalWord v) ∧
    (s.status.errBusy = false → t.status.errBusy = true → s.status.busy = true ∧
      (i.commandWord = some 1#32 ∨ i.commandWord = some 2#32 ∨ i.commandWord = some 3#32)) ∧
    (s.status.errBus = false → t.status.errBus = true → ∃ (a : Access) (off : BitVec 8),
      i.instr = some (decode (busx a off)) ∧ refusedOffset a off) ∧
    (s.status.errCmd = true → t.status.errCmd = false →
      i = .reset ∨ ∃ d : Word, i.statusWrite = some d ∧ d.getLsbD 8 = true) ∧
    (s.status.errBusy = true → t.status.errBusy = false →
      i = .reset ∨ ∃ d : Word, i.statusWrite = some d ∧ d.getLsbD 9 = true) ∧
    (s.status.errBus = true → t.status.errBus = false →
      i = .reset ∨ ∃ d : Word, i.statusWrite = some d ∧ d.getLsbD 10 = true)

/-! ### The round engine -/

/-- 41_compression.md R72: a tick before the tenth computes one key round and one state round with the new key, and
writes nothing the host can see. -/
def Obligations.TickRunsOneRound : Prop :=
  ∀ s : State, s.status.busy = true → s.r.toNat < 9 →
    stepInput .tick s = .next { s with
      k := rho (roundConst (s.r.toNat + 1)) s.k,
      ws := rho (rho (roundConst (s.r.toNat + 1)) s.k) s.ws,
      r := s.r + 1#4 }

/-- 41_compression.md R73: the tenth tick writes WS10 ⊕ H ⊕ ML into H, clears BUSY and sets DONE. -/
def Obligations.FinalTickWritesChainingValue : Prop :=
  ∀ s : State, s.status.busy = true → s.r = 9#4 →
    ∃ t : State, stepInput .tick s = .next t ∧
      t.k = rho (roundConst 10) s.k ∧ t.ws = rho t.k s.ws ∧ t.r = 10#4 ∧
      (∀ i j : Fin 8, t.h[i][j] = t.ws[i][j] ^^^ s.h[i][j] ^^^ s.ml[i][j]) ∧
      t = { s with k := t.k, ws := t.ws, r := t.r, h := t.h,
                   status := { s.status with busy := false, done := true } }

/-- 41_compression.md R72, 70_reset_and_hazards.md R123: no tick is enabled while BUSY = 0. That a planned tick slot
then passes with no effect, and that an idle machine with nothing planned stays as it is, are logs 4 and 3. -/
def Obligations.IdleEngineDoesNothing : Prop :=
  ∀ s : State, s.status.busy = false →
    stepInput .tick s = .next s ∧ (s.inputs = [] → step s = .next s)

/-- 41_compression.md R74, 10_state.md R29: every step, from every state, keeps the engine's invariant. -/
def Obligations.EveryStepKeepsEngineInvariant : Prop :=
  ∀ s t : State, EngineInv s → step s = .next t → EngineInv t

/-- The engine's invariant holds at reset (10_state.md R33). -/
def Obligations.EngineInvariantAtReset : Prop := EngineInv State.reset

/-- 60_exceptions.md R106: "No tick can fail". Under the invariant no step faults, so r = 11..15 and r = 10 with BUSY = 1
(log 5) are not met. -/
def Obligations.NoStepFaultsUnderInvariant : Prop :=
  ∀ (s : State) (f : Fault), EngineInv s → step s ≠ .fault f

/-- 41_compression.md R74: acceptance starts the pipeline; no access disturbs it; a tick advances it by one round; the
tenth leaves H = f(H0, m). -/
def Obligations.PipelineInvariantUnderInterleaving : Prop :=
  (∀ s t : State, s.status.busy = false → exec .compress s = .next t → InFlight s.h s.msg 0 t) ∧
  (∀ (h0 : Grid) (m : Block) (ticks : Nat) (s t : State) (i : Input), InFlight h0 m ticks s → i ≠ .reset →
    stepInput i s = .next t →
    (i ≠ .tick → InFlight h0 m ticks t) ∧
    (i = .tick → ticks < 9 → InFlight h0 m (ticks + 1) t) ∧
    (i = .tick → ticks = 9 → gridToBlock t.h = compressBlock (gridToBlock h0) m ∧
      t.status.busy = false ∧ t.status.done = true))

/-- 41_compression.md R70, R74, 42_commands.md R81: from acceptance, after j ≤ 10 ticks the pipeline holds the round key
and the cipher state of round j; H changes at the tenth and not before. -/
def Obligations.CompressTakesExactlyTenTicks : Prop :=
  ∀ (s : State) (j : Nat), s.status.busy = false → j ≤ 10 →
    ∃ t : State, runInputs (.packet (.cmdw 2#32) :: List.replicate j .tick) s = .next t ∧
      t.r.toNat = j ∧ t.k = roundKey s.h j ∧ t.ws = cipherState s.h (blockToGrid s.msg) j ∧
      t.ml = blockToGrid s.msg ∧
      t.h = (if j < 10 then s.h else compressGrid s.h (blockToGrid s.msg)) ∧
      t.status = { s.status with busy := decide (j < 10), done := decide (j = 10) } ∧
      t.msg = s.msg ∧ t.inputs = s.inputs

/-- 41_compression.md R74, 20_memory.md R44: whatever the host does between the ticks, short of reset, the tenth tick
after acceptance leaves H = f(H_old, MSG at acceptance). A run of packets and ticks is never stopped. -/
def Obligations.CompressResultUnderEveryInterleaving : Prop :=
  ∀ (s : State) (is : List Input), s.status.busy = false → .reset ∉ is → is.count .tick = 9 →
    (∀ t : State, runInputs (.packet (.cmdw 2#32) :: (is ++ [.tick])) s = .next t →
      gridToBlock t.h = compressBlock (gridToBlock s.h) s.msg ∧ t.status.busy = false ∧ t.status.done = true) ∧
    ((∀ i ∈ is, i = .tick ∨ ∃ p : Packet, i = .packet p) →
      ∃ t : State, runInputs (.packet (.cmdw 2#32) :: (is ++ [.tick])) s = .next t)

/-- 70_reset_and_hazards.md R125: with j of the ten ticks done, (a) a HASH read returns the old value before the tenth
and the new one after it, and (b) a second command is dropped before it and accepted after it. -/
def Obligations.BusyHazardHasBothOutcomes : Prop :=
  ∀ (s : State) (j : Nat), s.status.busy = false → j ≤ 10 →
    (∀ n : BitVec 4, ∃ t : State,
      runInputs (.packet (.cmdw 2#32) :: (List.replicate j .tick ++ [.packet (busx .read (hashOffset n))])) s =
        .next t ∧
      t.reply = some ⟨.ok, some (blockWord
        (if j < 10 then gridToBlock s.h else compressBlock (gridToBlock s.h) s.msg) n), none⟩) ∧
    (∀ v : Word, v = 1#32 ∨ v = 2#32 ∨ v = 3#32 → ∃ t : State,
      runInputs (.packet (.cmdw 2#32) :: (List.replicate j .tick ++ [.packet (.cmdw v)])) s = .next t ∧
      (j < 10 → t.status.errBusy = true ∧ t.status.busy = true ∧ t.reply = some ⟨.ok, none, some .busyCmd⟩) ∧
      (j = 10 → t.status.errBusy = s.status.errBusy ∧ t.reply = some ⟨.ok, none, none⟩))

/-- 70_reset_and_hazards.md R129: with no input left, the engine's turns finish an in-flight COMPRESS (log 3 is how the
model grants R129's fairness). -/
def Obligations.BusyBlockFinishesByItself : Prop :=
  ∀ s : State, EngineInv s → s.status.busy = true → s.inputs = [] →
    ∃ t : State, Host.Core.run Sys2Proof.core (10 - s.r.toNat) s = .next t ∧
      t.h = compressGrid s.h s.ml ∧ t.status = { s.status with busy := false, done := true } ∧ t.msg = s.msg

/-- 10_state.md R28, 92_eei_decisions.md D32: the hidden state reaches the host only through an in-flight COMPRESS. Two
states a host can't tell apart stay so under the same input. -/
def Obligations.HiddenStateStaysInvisible : Prop :=
  ∀ (i : Input) (a b a' : State), HostEqual a b → stepInput i a = .next a' →
    ∃ b' : State, stepInput i b = .next b' ∧ HostEqual a' b'

/-! ### Reset -/

/-- 10_state.md R33: every piece of state after reset. -/
def Obligations.ResetValues : Prop :=
  (∀ k : Fin 64, State.reset.msg[k] = 0#8) ∧
  (∀ i j : Fin 8, State.reset.h[i][j] = 0#8 ∧ State.reset.k[i][j] = 0#8 ∧ State.reset.ws[i][j] = 0#8 ∧
    State.reset.ml[i][j] = 0#8) ∧
  State.reset.r = 0#4 ∧
  State.reset.status = { busy := false, done := false, errCmd := false, errBusy := false, errBus := false } ∧
  infoWord = 0x000A4040#32

/-- 70_reset_and_hazards.md R121, R122: reset in any state, also during a COMPRESS and before any earlier reset. The
planned inputs are the host's and stay (log 1). -/
def Obligations.ResetInputResetsEverything : Prop :=
  ∀ (s : State) (rest : List Input), s.inputs = .reset :: rest →
    step s = .next { State.reset with inputs := rest }

/-! ### The round function and the field -/

/-- 40_round_function.md R55, R56, R60, R61, R62, R64, R65: each layer, entry by entry, with R62's row of C written out,
and the round constants. -/
def Obligations.RoundLayersEntrywise : Prop :=
  ∀ (key a : Grid) (i j : Fin 8),
    (gamma a)[i][j] = sbox a[i][j] ∧
    (∀ k : Fin 8, (k.val + j.val) % 8 = i.val → (cyclicPi a)[i][j] = a[k][j]) ∧
    (theta a)[i][j] = ((List.finRange 8).map fun k =>
      gmul a[i][k] (([0x01#8, 0x01#8, 0x04#8, 0x01#8, 0x08#8, 0x05#8, 0x02#8, 0x09#8] : List Byte).getD
        ((j.val + 8 - k.val) % 8) 0#8)).foldl (· ^^^ ·) 0#8 ∧
    (sigma key a)[i][j] = a[i][j] ^^^ key[i][j] ∧
    rho key a = sigma key (theta (cyclicPi (gamma a))) ∧
    (∀ r : Nat, 1 ≤ r → r ≤ 10 →
      (roundConst r)[i][j] = if i.val = 0 then sbox (BitVec.ofNat 8 (8 * (r - 1) + j.val)) else 0x00#8)

/-- 40_round_function.md R61: "θ is linear over XOR", and θ(0) = 0. -/
def Obligations.ThetaIsLinear : Prop :=
  theta zeroGrid = zeroGrid ∧ ∀ a b : Grid, theta (gridXor a b) = gridXor (theta a) (theta b)

/-- 40_round_function.md R55: ρ is a bijection in A for every K (injective on a finite set). -/
def Obligations.RhoIsInjective : Prop := ∀ key a b : Grid, rho key a = rho key b → a = b

/-- 40_round_function.md R57, R58, R59: the table and the mini-box construction agree, with the three boxes written out;
S has no fixed point and is a permutation. -/
def Obligations.SboxTableMatchesConstruction : Prop :=
  boxE.toList = [0x1, 0xB, 0x9, 0xC, 0xD, 0x6, 0xF, 0x3, 0xE, 0x8, 0x7, 0x4, 0xA, 0x2, 0x5, 0x0] ∧
  boxEInv.toList = [0xF, 0x0, 0xD, 0x7, 0xB, 0xE, 0x5, 0xA, 0x9, 0x2, 0xC, 0x1, 0x3, 0x4, 0x8, 0x6] ∧
  boxR.toList = [0x7, 0xC, 0xB, 0xD, 0xE, 0x4, 0x9, 0xF, 0x6, 0x3, 0x8, 0xA, 0x2, 0x5, 0x1, 0x0] ∧
  (∀ u : Byte, sbox u = sboxFromMiniBoxes u) ∧ (∀ u : Byte, sbox u ≠ u) ∧
  (∀ u : Byte, ∃ v : Byte, sbox v = u) ∧ sbox (sbox 0x00#8) = 0x1D#8

/-- 40_round_function.md R63: the products θ needs, from doublings. -/
def Obligations.FieldProductsFromDoublings : Prop :=
  ∀ x : Byte,
    gmul x 0x01#8 = x ∧
    gmul x 0x02#8 = ((x <<< 1) ^^^ (if x.getLsbD 7 = true then 0x1D#8 else 0x00#8)) ∧
    gmul x 0x04#8 = gmul (gmul x 0x02#8) 0x02#8 ∧
    gmul x 0x08#8 = gmul (gmul x 0x04#8) 0x02#8 ∧
    gmul x 0x05#8 = gmul x 0x04#8 ^^^ x ∧
    gmul x 0x09#8 = gmul x 0x08#8 ^^^ x

/-! ### Host addresses and several instances -/

/-- 20_memory.md R34, R41: a 4-byte access at BASE + off is the access at offset off, for any base and for the machine's
own input at its BASE; any other width is refused, and so is an address outside the window (logs 7 and 8). -/
def Obligations.HostAddressesReachOffsets : Prop :=
  ∀ (base : Nat) (a : Access) (s : State),
    (∀ off : BitVec 8, runHostAccess base a (base + off.toNat) 4 s = runAccess a off s) ∧
    (∀ address bytes : Nat, bytes ≠ 4 → runHostAccess base a address bytes s = .refused .accessWidth) ∧
    (∀ address : Nat, address < base ∨ base + 256 ≤ address →
      runHostAccess base a address 4 s = .refused .outsideWindow) ∧
    (∀ off : BitVec 8, stepInput (.hostAccess a (Config.base + off.toNat) 4) s = runAccess a off s) ∧
    (∀ address bytes : Nat, bytes ≠ 4 → stepInput (.hostAccess a address bytes) s = .refused .accessWidth) ∧
    (∀ address : Nat, address < Config.base ∨ Config.base + 256 ≤ address →
      stepInput (.hostAccess a address 4) s = .refused .outsideWindow) ∧
    Config.base % 256 = 0

/-- 60_exceptions.md R118, 20_memory.md R44: an event of a system changes the instance it concerns, as that instance's
own step, and no other. -/
def Obligations.InstancesAreIndependent : Prop :=
  ∀ (e : SystemEvent) (sys sys' : List Placed), systemStep e sys = .next sys' →
    sys'.length = sys.length ∧
    (∀ j : Nat, e.target sys ≠ some j → sys'[j]? = sys[j]?) ∧
    (∀ (j : Nat) (p : Placed), e.target sys = some j → sys[j]? = some p →
      ∃ t : State, placedStep e p = .next t ∧ sys'[j]? = some { p with block := t })

/-- 60_exceptions.md R118, 20_memory.md R34: where no two windows share a page, a 4-byte access at an instance's
BASE + off is that instance's access at off. -/
def Obligations.AccessReachesItsInstance : Prop :=
  ∀ (sys : List Placed) (j : Nat) (p : Placed) (a : Access) (off : BitVec 8),
    (sys.map Placed.page).Nodup → sys[j]? = some p →
    ∃ t : State, runAccess a off p.block = .next t ∧
      systemStep (.hostAccess a (256 * p.page + off.toNat) 4) sys = .next (sys.set j { p with block := t })

/-! ### The host protocol -/

/-- 70_reset_and_hazards.md R129: a wait whose schedule gives the engine the ticks still missing ends, with BUSY = 0,
DONE = 1 and H = f of the chaining value and the latched block. -/
def Obligations.WaitEndsWithResult : Prop :=
  ∀ (s : State) (schedule : List Nat), EngineInv s → s.status.busy = true → 10 - s.r.toNat ≤ schedule.sum →
    ∃ t : State, waitIdle schedule s = some t ∧ t.status = { s.status with busy := false, done := true } ∧
      t.h = compressGrid s.h s.ml ∧ t.msg = s.msg

/-- 41_compression.md R75: COMPRESS on successive blocks, each waited for, iterates f. -/
def Obligations.ChainedCompressIteratesF : Prop :=
  ∀ (s : State) (schedule : List Nat) (bs : List Block), s.status.busy = false → 10 ≤ schedule.sum →
    ∃ t : State, compressAll schedule bs s = some t ∧ t.status.busy = false ∧
      gridToBlock t.h = bs.foldl compressBlock (gridToBlock s.h)

/-- 42_commands.md R82, example: `ldmsg x; cmd LOAD_H; rdhash -> d` gives d = x for every 64-byte x. -/
def Obligations.LoadedChainingValueReadsBack : Prop :=
  ∀ (x : Block) (s : State), s.status.busy = false →
    ∃ t u : State, hostLoad x s = some t ∧ rdhash t = some (x, u) ∧ u.h = blockToGrid x ∧ u.msg = x

/-- 45_host_protocol.md R98: the padding's length and every byte of it. The length of 64 or 128 is R98's derived corner
case, and the loop's closed form in `padTail` is log 20. -/
def Obligations.PaddingShape : Prop :=
  ∀ (tail : List Byte) (len : BitVec 256), tail.length ≤ 63 →
    let total := if tail.length ≤ 31 then 64 else 128
    (padTail tail len).length = total ∧
    (∀ k : Nat, k < tail.length → (padTail tail len)[k]? = tail[k]?) ∧
    (padTail tail len)[tail.length]? = some 0x80#8 ∧
    (∀ k : Nat, tail.length < k → k < total - 32 → (padTail tail len)[k]? = some 0x00#8) ∧
    (∀ k : Nat, k < 32 → (padTail tail len)[total - 32 + k]? = some ((len >>> (8 * (31 - k))).setWidth 8))

/-- 45_host_protocol.md R104 (with R95 to R99): a new engine, beside any others, fed a message in any chunks returns the
whole-message function of the concatenation, under every schedule that gives each wait ten ticks. That `new` saves an
engine that was resident is log 28. -/
def Obligations.DigestIsWhirlpoolOfConcatenation : Prop :=
  ∀ (es : List Engine) (s : State) (schedule : List Nat) (chunks : List (List Byte)),
    s.status.busy = false → 10 ≤ schedule.sum →
    ∃ (es0 es1 : List Engine) (t0 t u : State), newEngine es s = some (es0, t0) ∧
      chunks.foldlM (fun (p : List Engine × State) b => updateAt schedule es.length b p.1 p.2) (es0, t0) =
        some (es1, t) ∧
      digestAt schedule es.length es1 t = some (whirlpool chunks.flatten, u)

/-- 45_host_protocol.md R99, R105: `digest` restores H, and a second `digest` returns the same bytes. -/
def Obligations.DigestIsIdempotent : Prop :=
  ∀ (e : Engine) (s : State) (schedule : List Nat), e.home = .resident → s.status.busy = false →
    10 ≤ schedule.sum →
    ∃ (d : Block) (t u : State), e.digest schedule s = some (d, t) ∧ t.h = s.h ∧ t.status.busy = false ∧
      e.digest schedule t = some (d, u)

/-- 45_host_protocol.md R93, R94, R101, R105: among engines that share a block at most one stays resident under every
operation. After E2 = copy(E), an update of E does not change the digest of E2, and an update of E2, made resident, does
not change the digest of E; nor does a new engine and its update (that `new` saves E first is log 28). E is number `n`,
the engine made from it or beside it is the last. -/
def Obligations.CopyIsIndependent : Prop :=
  (∀ (schedule : List Nat) (op : HostOp) (es es' : List Engine) (s t : State), OneResident es →
    runHostOp schedule op es s = some (es', t) → OneResident es') ∧
  ∀ (es : List Engine) (n : Nat) (e : Engine) (s : State) (schedule : List Nat) (x : List Byte),
    es[n]? = some e → e.home = .resident → s.status.busy = false → 10 ≤ schedule.sum →
    ∃ (d : Block) (w0 : State), digestAt schedule n es s = some (d, w0) ∧
      (∃ (es1 es2 es3 : List Engine) (e' : Engine) (t u v w : State),
        copyAt n es s = some (es1, t) ∧ updateAt schedule n x es1 t = some (es2, u) ∧
        makeResidentAt es.length es2 u = some (es3, v) ∧ digestAt schedule es.length es3 v = some (d, w) ∧
        es2[n]? = some e' ∧ es3[n]? = some { e' with home := .saved (gridToBlock u.h) }) ∧
      (∃ (es1 es2 es3 es4 : List Engine) (t u v w z : State),
        copyAt n es s = some (es1, t) ∧ makeResidentAt es.length es1 t = some (es2, u) ∧
        updateAt schedule es.length x es2 u = some (es3, v) ∧ makeResidentAt n es3 v = some (es4, w) ∧
        digestAt schedule n es4 w = some (d, z)) ∧
      (∃ (es1 es2 : List Engine) (t u w : State),
        newEngineWith schedule x es s = some (es1, t) ∧ makeResidentAt n es1 t = some (es2, u) ∧
        digestAt schedule n es2 u = some (d, w))
end

