-- ==== Sys2Proof/Laws/Data.lean ====
section
/-! SUPPORT. Laws/Data.lean: the entries of the matrices and byte arrays the operations build: one lemma per operand
form (Machine/Operands.lean) and per matrix operation (Machine/Round.lean). -/

namespace Sys2Proof

@[simp] theorem gridOf_entry (f : Fin 8 → Fin 8 → Byte) (i j : Nat) (hi : i < 8) (hj : j < 8) :
    (gridOf f)[i][j] = f ⟨i, hi⟩ ⟨j, hj⟩ := by
  simp [gridOf]

@[simp] theorem zeroGrid_entry (i j : Nat) (hi : i < 8) (hj : j < 8) : zeroGrid[i][j] = 0#8 :=
  gridOf_entry _ i j hi hj

@[simp] theorem zeroBlock_byte (k : Nat) (hk : k < 64) : zeroBlock[k] = 0#8 := by simp [zeroBlock]

/-- Two matrices with the same entries are the same. -/
theorem grid_ext {a b : Grid} (h : ∀ i j : Fin 8, a[i][j] = b[i][j]) : a = b := by
  apply Vector.ext
  intro i hi
  apply Vector.ext
  intro j hj
  exact h ⟨i, hi⟩ ⟨j, hj⟩

/-- Two 64-byte sequences with the same bytes are the same. -/
theorem block_ext {a b : Block} (h : ∀ k : Fin 64, a[k] = b[k]) : a = b := by
  apply Vector.ext
  intro k hk
  exact h ⟨k, hk⟩

namespace Machine

@[simp] theorem gridXor_entry (a b : Grid) (i j : Nat) (hi : i < 8) (hj : j < 8) :
    (gridXor a b)[i][j] = a[i][j] ^^^ b[i][j] := gridOf_entry _ i j hi hj

@[simp] theorem sigma_entry (key a : Grid) (i j : Nat) (hi : i < 8) (hj : j < 8) :
    (sigma key a)[i][j] = a[i][j] ^^^ key[i][j] := gridOf_entry _ i j hi hj

@[simp] theorem gamma_entry (a : Grid) (i j : Nat) (hi : i < 8) (hj : j < 8) :
    (gamma a)[i][j] = sbox a[i][j] := gridOf_entry _ i j hi hj

/-- π in the form of its definition, with row indices modulo 8 (40_round_function.md R60). -/
theorem cyclicPi_entry (a : Grid) (i j : Fin 8) : (cyclicPi a)[i][j] = a[i - j][j] :=
  gridOf_entry _ i.val j.val i.isLt j.isLt

/-- θ in the form of its definition (40_round_function.md R61). -/
theorem theta_entry (a : Grid) (i j : Fin 8) :
    (theta a)[i][j] = xorSum8 fun k => gmul a[i][k] (diffusion k j) :=
  gridOf_entry _ i.val j.val i.isLt j.isLt

@[simp] theorem blockToGrid_entry (b : Block) (i j : Nat) (hi : i < 8) (hj : j < 8) :
    (blockToGrid b)[i][j] = b[8 * i + j] := gridOf_entry _ i j hi hj

@[simp] theorem gridToBlock_byte (g : Grid) (k : Nat) (hk : k < 64) :
    (gridToBlock g)[k] = (g[k / 8]'(by omega))[k % 8]'(by omega) := by
  simp [gridToBlock]

/-- μ(μ⁻¹(A)) = A (00_scope.md R14). -/
@[simp] theorem blockToGrid_gridToBlock (g : Grid) : blockToGrid (gridToBlock g) = g :=
  grid_ext fun i j => by
    have hi : (8 * i.val + j.val) / 8 = i.val := by omega
    have hj : (8 * i.val + j.val) % 8 = j.val := by omega
    simp [hi, hj]

/-- μ⁻¹(μ(b)) = b (00_scope.md R14). -/
@[simp] theorem gridToBlock_blockToGrid (b : Block) : gridToBlock (blockToGrid b) = b :=
  block_ext fun k => by
    have hk : 8 * (k.val / 8) + k.val % 8 = k.val := Nat.div_add_mod k.val 8
    simp [hk]

/-- The pure function on bytes is the one on matrices (41_compression.md R68). -/
theorem compressBlock_gridToBlock (g : Grid) (m : Block) :
    compressBlock (gridToBlock g) m = gridToBlock (compressGrid g (blockToGrid m)) := by
  simp [compressBlock]

/-- The byte of a written register word: lane k mod 4 of word k / 4 (20_memory.md R37). -/
theorem setBlockWord_byte (b : Block) (n : BitVec 4) (d : Word) (k : Fin 64) :
    (setBlockWord b n d)[k] =
      if k.val / 4 = n.toNat then wordLane d ⟨k.val % 4, by omega⟩ else b[k] := by
  have hn := n.isLt
  simp only [setBlockWord, Fin.getElem_fin, Vector.getElem_set, laneIndex]
  by_cases h : k.val / 4 = n.toNat
  · have h4 : k.val % 4 = 0 ∨ k.val % 4 = 1 ∨ k.val % 4 = 2 ∨ k.val % 4 = 3 := by omega
    rcases h4 with h4 | h4 | h4 | h4 <;> simp only [h, h4, if_true] <;> split_ifs <;> first | rfl | (exfalso; simp at *; omega)
  · split_ifs <;> first | rfl | (exfalso; simp at *; omega)

/-- The four bytes of a concatenation, lane by lane. -/
theorem extract_append4 (a b c d : Byte) :
    (a ++ b ++ c ++ d).extractLsb' 0 8 = d ∧ (a ++ b ++ c ++ d).extractLsb' 8 8 = c ∧
      (a ++ b ++ c ++ d).extractLsb' 16 8 = b ∧ (a ++ b ++ c ++ d).extractLsb' 24 8 = a := by
  refine ⟨?_, ?_, ?_, ?_⟩ <;> apply BitVec.eq_of_getLsbD_eq <;> intro i hi <;>
    simp only [BitVec.getLsbD_extractLsb', BitVec.getLsbD_append, hi, decide_true, Bool.true_and]
  · simp [hi]
  · simp [hi, show ¬ 8 + i < 8 by omega]
  · simp [hi, show ¬ 16 + i < 8 by omega, show ¬ 16 + i - 8 < 8 by omega, show 16 + i - 8 - 8 = i by omega]
  · simp [show ¬ 24 + i < 8 by omega, show ¬ 24 + i - 8 < 8 by omega, show ¬ 24 + i - 8 - 8 < 8 by omega,
      show 24 + i - 8 - 8 - 8 = i by omega]

/-- The lanes of a register word are its four bytes (20_memory.md R37). -/
theorem wordLane_blockWord (b : Block) (n : BitVec 4) (l : Fin 4) :
    wordLane (blockWord b n) l = b[laneIndex n l] := by
  have h := extract_append4 b[laneIndex n 3] b[laneIndex n 2] b[laneIndex n 1] b[laneIndex n 0]
  fin_cases l
  · exact h.1
  · exact h.2.1
  · exact h.2.2.1
  · exact h.2.2.2

/-- A word is its four lanes: two words with the same lanes are the same. -/
theorem word_ext_lanes {u v : Word} (h : ∀ l : Fin 4, wordLane u l = wordLane v l) : u = v := by
  apply BitVec.eq_of_getLsbD_eq
  intro i hi
  have hl := congrArg (fun x : Byte => x.getLsbD (i % 8)) (h ⟨i / 8, by omega⟩)
  simp only [wordLane, BitVec.getLsbD_extractLsb'] at hl
  have h8 : i % 8 < 8 := Nat.mod_lt _ (by decide)
  have hi' : 8 * (i / 8) + i % 8 = i := Nat.div_add_mod i 8
  simpa [h8, hi'] using hl

/-- A register word after a register word is written (42_commands.md R83, R84). -/
theorem blockWord_setBlockWord (b : Block) (n m : BitVec 4) (d : Word) :
    blockWord (setBlockWord b n d) m = if m = n then d else blockWord b m := by
  have hm := m.isLt
  apply word_ext_lanes
  intro l
  rw [wordLane_blockWord, setBlockWord_byte]
  have hq : (laneIndex m l).val / 4 = m.toNat := by simp [laneIndex]; omega
  have hr : (laneIndex m l).val % 4 = l.val := by simp [laneIndex]
  rw [hq]
  by_cases h : m = n
  · subst h; simp [hr]
  · have hne : m.toNat ≠ n.toNat := fun hc => h (BitVec.eq_of_toNat_eq hc)
    simp [hne, h, wordLane_blockWord]

/-- Two byte arrays with the same register words are the same. -/
theorem block_ext_words {a b : Block} (h : ∀ n : BitVec 4, blockWord a n = blockWord b n) : a = b := by
  apply block_ext
  intro k
  have hk : laneIndex (BitVec.ofNat 4 (k.val / 4)) ⟨k.val % 4, by omega⟩ = k := by
    ext; simp [laneIndex]; omega
  have := congrArg (fun w => wordLane w ⟨k.val % 4, by omega⟩) (h (BitVec.ofNat 4 (k.val / 4)))
  simpa only [wordLane_blockWord, hk] using this

end Machine

end Sys2Proof
end

