-- ==== Sys2Proof/Laws/State.lean ====
section
/-! SUPPORT. Laws/State.lean: what each update of Machine/Ops.lean does to each field of State, and what each flag
update of Machine/Flags.lean does to each flag, so that no later proof unfolds a record update. -/

namespace Sys2Proof.Machine

@[simp] theorem State.withMsg_msg (s : State) (m : Block) : (s.withMsg m).msg = m := rfl
@[simp] theorem State.withMsg_h (s : State) (m : Block) : (s.withMsg m).h = s.h := rfl
@[simp] theorem State.withMsg_status (s : State) (m : Block) : (s.withMsg m).status = s.status := rfl
@[simp] theorem State.withMsg_k (s : State) (m : Block) : (s.withMsg m).k = s.k := rfl
@[simp] theorem State.withMsg_ws (s : State) (m : Block) : (s.withMsg m).ws = s.ws := rfl
@[simp] theorem State.withMsg_ml (s : State) (m : Block) : (s.withMsg m).ml = s.ml := rfl
@[simp] theorem State.withMsg_r (s : State) (m : Block) : (s.withMsg m).r = s.r := rfl
@[simp] theorem State.withMsg_reply (s : State) (m : Block) : (s.withMsg m).reply = s.reply := rfl
@[simp] theorem State.withMsg_inputs (s : State) (m : Block) : (s.withMsg m).inputs = s.inputs := rfl

@[simp] theorem State.withH_msg (s : State) (g : Grid) : (s.withH g).msg = s.msg := rfl
@[simp] theorem State.withH_h (s : State) (g : Grid) : (s.withH g).h = g := rfl
@[simp] theorem State.withH_status (s : State) (g : Grid) : (s.withH g).status = s.status := rfl
@[simp] theorem State.withH_k (s : State) (g : Grid) : (s.withH g).k = s.k := rfl
@[simp] theorem State.withH_ws (s : State) (g : Grid) : (s.withH g).ws = s.ws := rfl
@[simp] theorem State.withH_ml (s : State) (g : Grid) : (s.withH g).ml = s.ml := rfl
@[simp] theorem State.withH_r (s : State) (g : Grid) : (s.withH g).r = s.r := rfl
@[simp] theorem State.withH_reply (s : State) (g : Grid) : (s.withH g).reply = s.reply := rfl
@[simp] theorem State.withH_inputs (s : State) (g : Grid) : (s.withH g).inputs = s.inputs := rfl

@[simp] theorem State.withStatus_msg (s : State) (st : Status) : (s.withStatus st).msg = s.msg := rfl
@[simp] theorem State.withStatus_h (s : State) (st : Status) : (s.withStatus st).h = s.h := rfl
@[simp] theorem State.withStatus_status (s : State) (st : Status) : (s.withStatus st).status = st := rfl
@[simp] theorem State.withStatus_k (s : State) (st : Status) : (s.withStatus st).k = s.k := rfl
@[simp] theorem State.withStatus_ws (s : State) (st : Status) : (s.withStatus st).ws = s.ws := rfl
@[simp] theorem State.withStatus_ml (s : State) (st : Status) : (s.withStatus st).ml = s.ml := rfl
@[simp] theorem State.withStatus_r (s : State) (st : Status) : (s.withStatus st).r = s.r := rfl
@[simp] theorem State.withStatus_reply (s : State) (st : Status) : (s.withStatus st).reply = s.reply := rfl
@[simp] theorem State.withStatus_inputs (s : State) (st : Status) : (s.withStatus st).inputs = s.inputs := rfl

@[simp] theorem State.withRound_msg (s : State) (key work : Grid) (round : BitVec 4) : (s.withRound key work round).msg = s.msg := rfl
@[simp] theorem State.withRound_h (s : State) (key work : Grid) (round : BitVec 4) : (s.withRound key work round).h = s.h := rfl
@[simp] theorem State.withRound_status (s : State) (key work : Grid) (round : BitVec 4) : (s.withRound key work round).status = s.status := rfl
@[simp] theorem State.withRound_k (s : State) (key work : Grid) (round : BitVec 4) : (s.withRound key work round).k = key := rfl
@[simp] theorem State.withRound_ws (s : State) (key work : Grid) (round : BitVec 4) : (s.withRound key work round).ws = work := rfl
@[simp] theorem State.withRound_ml (s : State) (key work : Grid) (round : BitVec 4) : (s.withRound key work round).ml = s.ml := rfl
@[simp] theorem State.withRound_r (s : State) (key work : Grid) (round : BitVec 4) : (s.withRound key work round).r = round := rfl
@[simp] theorem State.withRound_reply (s : State) (key work : Grid) (round : BitVec 4) : (s.withRound key work round).reply = s.reply := rfl
@[simp] theorem State.withRound_inputs (s : State) (key work : Grid) (round : BitVec 4) : (s.withRound key work round).inputs = s.inputs := rfl

@[simp] theorem State.withMl_msg (s : State) (m : Grid) : (s.withMl m).msg = s.msg := rfl
@[simp] theorem State.withMl_h (s : State) (m : Grid) : (s.withMl m).h = s.h := rfl
@[simp] theorem State.withMl_status (s : State) (m : Grid) : (s.withMl m).status = s.status := rfl
@[simp] theorem State.withMl_k (s : State) (m : Grid) : (s.withMl m).k = s.k := rfl
@[simp] theorem State.withMl_ws (s : State) (m : Grid) : (s.withMl m).ws = s.ws := rfl
@[simp] theorem State.withMl_ml (s : State) (m : Grid) : (s.withMl m).ml = m := rfl
@[simp] theorem State.withMl_r (s : State) (m : Grid) : (s.withMl m).r = s.r := rfl
@[simp] theorem State.withMl_reply (s : State) (m : Grid) : (s.withMl m).reply = s.reply := rfl
@[simp] theorem State.withMl_inputs (s : State) (m : Grid) : (s.withMl m).inputs = s.inputs := rfl

@[simp] theorem State.withReply_msg (s : State) (rep : Option Reply) : (s.withReply rep).msg = s.msg := rfl
@[simp] theorem State.withReply_h (s : State) (rep : Option Reply) : (s.withReply rep).h = s.h := rfl
@[simp] theorem State.withReply_status (s : State) (rep : Option Reply) : (s.withReply rep).status = s.status := rfl
@[simp] theorem State.withReply_k (s : State) (rep : Option Reply) : (s.withReply rep).k = s.k := rfl
@[simp] theorem State.withReply_ws (s : State) (rep : Option Reply) : (s.withReply rep).ws = s.ws := rfl
@[simp] theorem State.withReply_ml (s : State) (rep : Option Reply) : (s.withReply rep).ml = s.ml := rfl
@[simp] theorem State.withReply_r (s : State) (rep : Option Reply) : (s.withReply rep).r = s.r := rfl
@[simp] theorem State.withReply_reply (s : State) (rep : Option Reply) : (s.withReply rep).reply = rep := rfl
@[simp] theorem State.withReply_inputs (s : State) (rep : Option Reply) : (s.withReply rep).inputs = s.inputs := rfl

@[simp] theorem State.withInputs_msg (s : State) (is : List Input) : (s.withInputs is).msg = s.msg := rfl
@[simp] theorem State.withInputs_h (s : State) (is : List Input) : (s.withInputs is).h = s.h := rfl
@[simp] theorem State.withInputs_status (s : State) (is : List Input) : (s.withInputs is).status = s.status := rfl
@[simp] theorem State.withInputs_k (s : State) (is : List Input) : (s.withInputs is).k = s.k := rfl
@[simp] theorem State.withInputs_ws (s : State) (is : List Input) : (s.withInputs is).ws = s.ws := rfl
@[simp] theorem State.withInputs_ml (s : State) (is : List Input) : (s.withInputs is).ml = s.ml := rfl
@[simp] theorem State.withInputs_r (s : State) (is : List Input) : (s.withInputs is).r = s.r := rfl
@[simp] theorem State.withInputs_reply (s : State) (is : List Input) : (s.withInputs is).reply = s.reply := rfl
@[simp] theorem State.withInputs_inputs (s : State) (is : List Input) : (s.withInputs is).inputs = is := rfl

@[simp] theorem Status.raiseCmd_busy (st : Status) : (st.raiseCmd).busy = st.busy := rfl
@[simp] theorem Status.raiseCmd_done (st : Status) : (st.raiseCmd).done = st.done := rfl
@[simp] theorem Status.raiseCmd_errCmd (st : Status) : (st.raiseCmd).errCmd = true := rfl
@[simp] theorem Status.raiseCmd_errBusy (st : Status) : (st.raiseCmd).errBusy = st.errBusy := rfl
@[simp] theorem Status.raiseCmd_errBus (st : Status) : (st.raiseCmd).errBus = st.errBus := rfl

@[simp] theorem Status.raiseBusy_busy (st : Status) : (st.raiseBusy).busy = st.busy := rfl
@[simp] theorem Status.raiseBusy_done (st : Status) : (st.raiseBusy).done = st.done := rfl
@[simp] theorem Status.raiseBusy_errCmd (st : Status) : (st.raiseBusy).errCmd = st.errCmd := rfl
@[simp] theorem Status.raiseBusy_errBusy (st : Status) : (st.raiseBusy).errBusy = true := rfl
@[simp] theorem Status.raiseBusy_errBus (st : Status) : (st.raiseBusy).errBus = st.errBus := rfl

@[simp] theorem Status.raiseBus_busy (st : Status) : (st.raiseBus).busy = st.busy := rfl
@[simp] theorem Status.raiseBus_done (st : Status) : (st.raiseBus).done = st.done := rfl
@[simp] theorem Status.raiseBus_errCmd (st : Status) : (st.raiseBus).errCmd = st.errCmd := rfl
@[simp] theorem Status.raiseBus_errBusy (st : Status) : (st.raiseBus).errBusy = st.errBusy := rfl
@[simp] theorem Status.raiseBus_errBus (st : Status) : (st.raiseBus).errBus = true := rfl

@[simp] theorem Status.start_busy (st : Status) : (st.start).busy = true := rfl
@[simp] theorem Status.start_done (st : Status) : (st.start).done = false := rfl
@[simp] theorem Status.start_errCmd (st : Status) : (st.start).errCmd = st.errCmd := rfl
@[simp] theorem Status.start_errBusy (st : Status) : (st.start).errBusy = st.errBusy := rfl
@[simp] theorem Status.start_errBus (st : Status) : (st.start).errBus = st.errBus := rfl

@[simp] theorem Status.finish_busy (st : Status) : (st.finish).busy = false := rfl
@[simp] theorem Status.finish_done (st : Status) : (st.finish).done = true := rfl
@[simp] theorem Status.finish_errCmd (st : Status) : (st.finish).errCmd = st.errCmd := rfl
@[simp] theorem Status.finish_errBusy (st : Status) : (st.finish).errBusy = st.errBusy := rfl
@[simp] theorem Status.finish_errBus (st : Status) : (st.finish).errBus = st.errBus := rfl

@[simp] theorem Status.complete_busy (st : Status) : (st.complete).busy = st.busy := rfl
@[simp] theorem Status.complete_done (st : Status) : (st.complete).done = true := rfl
@[simp] theorem Status.complete_errCmd (st : Status) : (st.complete).errCmd = st.errCmd := rfl
@[simp] theorem Status.complete_errBusy (st : Status) : (st.complete).errBusy = st.errBusy := rfl
@[simp] theorem Status.complete_errBus (st : Status) : (st.complete).errBus = st.errBus := rfl

@[simp] theorem Status.clearBy_busy (st : Status) (d : Word) : (st.clearBy d).busy = st.busy := rfl
@[simp] theorem Status.clearBy_done (st : Status) (d : Word) : (st.clearBy d).done = (st.done && !d.getLsbD 1) := rfl
@[simp] theorem Status.clearBy_errCmd (st : Status) (d : Word) : (st.clearBy d).errCmd = (st.errCmd && !d.getLsbD 8) := rfl
@[simp] theorem Status.clearBy_errBusy (st : Status) (d : Word) : (st.clearBy d).errBusy = (st.errBusy && !d.getLsbD 9) := rfl
@[simp] theorem Status.clearBy_errBus (st : Status) (d : Word) : (st.clearBy d).errBus = (st.errBus && !d.getLsbD 10) := rfl

end Sys2Proof.Machine
end

