-- ==== Sys2Proof/Laws/Ops.lean ====
section
/-! SUPPORT. Laws/Ops.lean: one lemma per shared operation of Machine/Ops.lean: everything it can do. Callers cite these
and do not unfold the operation. -/

namespace Sys2Proof.Machine

/-! ### Replies -/

theorem answerRead_eq (d : Word) (s : State) :
    answerRead d s = { s with reply := some ⟨.ok, some d, none⟩ } := rfl

theorem answerWrite_eq (s : State) : answerWrite s = { s with reply := some ⟨.ok, none, none⟩ } := rfl

theorem answerDropped_eq (c : Cause) (s : State) :
    answerDropped c s = { s with reply := some ⟨.ok, none, some c⟩ } := rfl

/-- 60_exceptions.md R109. -/
theorem raiseBusError_eq (c : Cause) (a : Access) (s : State) :
    raiseBusError c a s = { s with status := { s.status with errBus := true },
                                   reply := some ⟨.busErr, errorData a, some c⟩ } := rfl

theorem errorData_eq (a : Access) : errorData a = if a = .read then some 0#32 else none := by
  cases a <;> simp [errorData]

/-! ### Commands -/

theorem dropIllegal_eq (s : State) :
    dropIllegal s = { s with status := { s.status with errCmd := true },
                             reply := some ⟨.ok, none, some .illegalCmd⟩ } := rfl

theorem dropBusy_eq (s : State) :
    dropBusy s = { s with status := { s.status with errBusy := true },
                          reply := some ⟨.ok, none, some .busyCmd⟩ } := rfl

theorem runNop_eq (s : State) : runNop s = { s with reply := some ⟨.ok, none, none⟩ } := rfl

theorem runInit_eq (s : State) :
    runInit s = { s with h := zeroGrid, status := { s.status with done := true },
                         reply := some ⟨.ok, none, none⟩ } := rfl

theorem runCompress_eq (s : State) :
    runCompress s = { s with ml := blockToGrid s.msg, k := s.h, ws := gridXor (blockToGrid s.msg) s.h, r := 0#4,
                             status := { s.status with busy := true, done := false },
                             reply := some ⟨.ok, none, none⟩ } := rfl

theorem runLoadH_eq (s : State) :
    runLoadH s = { s with h := blockToGrid s.msg, status := { s.status with done := true },
                          reply := some ⟨.ok, none, none⟩ } := rfl

theorem whenIdle_of_busy {run : State → State} {s : State} (h : s.status.busy = true) :
    whenIdle run s = dropBusy s := by simp [whenIdle, h]

theorem whenIdle_of_idle {run : State → State} {s : State} (h : s.status.busy = false) :
    whenIdle run s = run s := by simp [whenIdle, h]

/-- What `cmd_write` can do, with the check that decides it (42_commands.md R76). -/
theorem cmdWrite_cases (v : Word) (s : State) :
    ((v.extractLsb' 4 28 ≠ 0#28 ∨ 4 ≤ (v.extractLsb' 0 4).toNat) ∧ cmdWrite v s = dropIllegal s) ∨
    (v.extractLsb' 4 28 = 0#28 ∧
      (v.extractLsb' 0 4 = 0#4 ∧ cmdWrite v s = runNop s ∨
       v.extractLsb' 0 4 = 1#4 ∧ cmdWrite v s = whenIdle runInit s ∨
       v.extractLsb' 0 4 = 2#4 ∧ cmdWrite v s = whenIdle runCompress s ∨
       v.extractLsb' 0 4 = 3#4 ∧ cmdWrite v s = whenIdle runLoadH s)) := by
  by_cases hr : v.extractLsb' 4 28 = 0#28
  · by_cases h4 : 4#4 ≤ v.extractLsb' 0 4
    · exact .inl ⟨.inr (by simpa [BitVec.le_def] using h4), by simp [cmdWrite, h4]⟩
    · have hop : v.extractLsb' 0 4 = 0#4 ∨ v.extractLsb' 0 4 = 1#4 ∨ v.extractLsb' 0 4 = 2#4 ∨
          v.extractLsb' 0 4 = 3#4 := by
        generalize v.extractLsb' 0 4 = op at *
        revert op; decide
      refine .inr ⟨hr, ?_⟩
      rcases hop with h | h | h | h <;> simp [cmdWrite, whenIdle, hr, h, BitVec.le_def]
  · exact .inl ⟨.inl hr, by simp [cmdWrite, hr]⟩

/-! ### The round engine -/

/-- A tick below the tenth round (41_compression.md R72). -/
theorem tick_of_lt {s : State} (h : s.r.toNat < 9) :
    tick s = .next (s.withRound (rho (roundConst (s.r.toNat + 1)) s.k)
      (rho (rho (roundConst (s.r.toNat + 1)) s.k) s.ws) (BitVec.ofNat 4 (s.r.toNat + 1))) := by
  have h1 : s.r.toNat + 1 ≤ rounds := by simp [rounds]; omega
  have h2 : ¬ s.r.toNat + 1 = rounds := by simp [rounds]; omega
  simp [tick, h1, h2]

/-- The tenth tick (41_compression.md R73). -/
theorem tick_of_nine {s : State} (h : s.r.toNat = 9) :
    tick s = .next (finalTick (s.withRound (rho (roundConst 10) s.k)
      (rho (rho (roundConst 10) s.k) s.ws) 10#4)) := by
  simp [tick, h, rounds]

/-- A tick outside rounds 1..10 faults (log 5). -/
theorem tick_of_ge {s : State} (h : 10 ≤ s.r.toNat) : tick s = .fault .roundOutOfRange := by
  have h1 : ¬ s.r.toNat + 1 ≤ rounds := by simp [rounds]; omega
  simp [tick, h1]

theorem engineTurn_of_idle {s : State} (h : s.status.busy = false) : engineTurn s = .next s := by
  simp [engineTurn, h]

theorem engineTurn_of_busy {s : State} (h : s.status.busy = true) : engineTurn s = tick s := by
  simp [engineTurn, h]

/-- Everything the engine's turn can do when it answers a next state. -/
theorem engineTurn_cases {s t : State} (h : engineTurn s = .next t) :
    (s.status.busy = false ∧ t = s) ∨
    (s.status.busy = true ∧ s.r.toNat < 9 ∧
      t = s.withRound (rho (roundConst (s.r.toNat + 1)) s.k)
        (rho (rho (roundConst (s.r.toNat + 1)) s.k) s.ws) (BitVec.ofNat 4 (s.r.toNat + 1))) ∨
    (s.status.busy = true ∧ s.r.toNat = 9 ∧
      t = finalTick (s.withRound (rho (roundConst 10) s.k) (rho (rho (roundConst 10) s.k) s.ws) 10#4)) := by
  cases hb : s.status.busy with
  | false => rw [engineTurn_of_idle hb] at h; exact .inl ⟨rfl, by cases h; rfl⟩
  | true =>
    rw [engineTurn_of_busy hb] at h
    rcases Nat.lt_trichotomy s.r.toNat 9 with hr | hr | hr
    · rw [tick_of_lt hr] at h; exact .inr (.inl ⟨rfl, hr, by cases h; rfl⟩)
    · rw [tick_of_nine hr] at h; exact .inr (.inr ⟨rfl, hr, by cases h; rfl⟩)
    · rw [tick_of_ge hr] at h; cases h

@[simp] theorem finalTick_h (s : State) : (finalTick s).h = gridXor (gridXor s.ws s.h) s.ml := rfl
@[simp] theorem finalTick_status (s : State) : (finalTick s).status = s.status.finish := rfl
@[simp] theorem finalTick_msg (s : State) : (finalTick s).msg = s.msg := rfl
@[simp] theorem finalTick_k (s : State) : (finalTick s).k = s.k := rfl
@[simp] theorem finalTick_ws (s : State) : (finalTick s).ws = s.ws := rfl
@[simp] theorem finalTick_ml (s : State) : (finalTick s).ml = s.ml := rfl
@[simp] theorem finalTick_r (s : State) : (finalTick s).r = s.r := rfl
@[simp] theorem finalTick_reply (s : State) : (finalTick s).reply = s.reply := rfl
@[simp] theorem finalTick_inputs (s : State) : (finalTick s).inputs = s.inputs := rfl

/-! ### Every instruction answers a next state -/

/-- `exec` never stops: no instruction of the block faults or is refused (60_exceptions.md R106, R113). -/
theorem exec_next (i : Instr) (s : State) : ∃ t, exec i s = .next t := by
  cases i <;> exact ⟨_, rfl⟩

/-- Everything an instruction can do to the block: refuse the access, answer a read, write MSG, clear STATUS flags, drop
a word, or run a command while idle. -/
theorem exec_cases {i : Instr} {s t : State} (h : exec i s = .next t) :
    (∃ c a, t = raiseBusError c a s) ∨
    (∃ d, t = answerRead d s) ∨
    (∃ n d, i = .wrMsg n d ∧ t = answerWrite (s.withMsg (setBlockWord s.msg n d))) ∨
    (∃ d, i = .wrStatus d ∧ t = answerWrite (s.withStatus (s.status.clearBy d))) ∨
    t = dropIllegal s ∨ t = runNop s ∨
    (s.status.busy = true ∧ t = dropBusy s) ∨
    (s.status.busy = false ∧ (t = runInit s ∨ t = runCompress s ∨ t = runLoadH s)) := by
  have idle (run : State → State) (hrun : run s = runInit s ∨ run s = runCompress s ∨ run s = runLoadH s)
      (ht : t = whenIdle run s) : (s.status.busy = true ∧ t = dropBusy s) ∨
        (s.status.busy = false ∧ (t = runInit s ∨ t = runCompress s ∨ t = runLoadH s)) := by
    cases hb : s.status.busy with
    | true => exact .inl ⟨rfl, ht.trans (whenIdle_of_busy hb)⟩
    | false => rw [whenIdle_of_idle hb] at ht; exact .inr ⟨rfl, by rwa [← ht] at hrun⟩
  cases i <;> injection h with h <;> subst h
  case nop => tauto
  case init => right; right; right; right; right; right; exact idle _ (.inl rfl) rfl
  case compress => right; right; right; right; right; right; exact idle _ (.inr (.inl rfl)) rfl
  case loadH => right; right; right; right; right; right; exact idle _ (.inr (.inr rfl)) rfl
  case illegalOp47 => tauto
  case illegalOp8F => tauto
  case illegalRsvd => tauto
  case wrMsg n d => exact .inr (.inr (.inl ⟨n, d, rfl, rfl⟩))
  case wrStatus d => exact .inr (.inr (.inr (.inl ⟨d, rfl, rfl⟩)))
  case wrCmd d =>
    right; right; right; right
    rcases cmdWrite_cases d s with ⟨-, e⟩ | ⟨-, ⟨-, e⟩ | ⟨-, e⟩ | ⟨-, e⟩ | ⟨-, e⟩⟩
    · exact .inl e
    · exact .inr (.inl e)
    · right; right; exact idle _ (.inl rfl) e
    · right; right; exact idle _ (.inr (.inl rfl)) e
    · right; right; exact idle _ (.inr (.inr rfl)) e
  all_goals first | exact .inl ⟨_, _, rfl⟩ | exact .inr (.inl ⟨_, rfl⟩)

end Sys2Proof.Machine
end

