-- ==== Sys2Proof/Laws/Step.lean ====
section
/-! SUPPORT. Laws/Step.lean: what a step, one input and a run of inputs can do (Machine/Events.lean). -/

namespace Sys2Proof.Machine

/-- A host access that is not refused is an access at the window offset it reaches. -/
theorem runHostAccess_cases {base address bytes : Nat} {a : Access} {s t : State}
    (h : runHostAccess base a address bytes s = .next t) :
    ∃ off, windowOffset base address bytes = .ok off ∧ runAccess a off s = .next t := by
  unfold runHostAccess at h
  cases hw : windowOffset base address bytes with
  | ok off => rw [hw] at h; exact ⟨off, rfl, h⟩
  | error e => rw [hw] at h; cases h

/-- Everything one input can do when it answers a next state: an instruction, an engine turn, a reset. -/
theorem stepInput_cases {i : Input} {s t : State} (h : stepInput i s = .next t) :
    (∃ p, i = .packet p ∧ exec (decode p) s = .next t) ∨
    (∃ a address bytes off, i = .hostAccess a address bytes ∧
      windowOffset Config.base address bytes = .ok off ∧ exec (decode (busx a off)) s = .next t) ∨
    (i = .tick ∧ engineTurn s = .next t) ∨ (i = .reset ∧ t = resetBlock s) := by
  cases i with
  | packet p => exact .inl ⟨p, rfl, h⟩
  | hostAccess a address bytes =>
    obtain ⟨off, hw, h⟩ := runHostAccess_cases h
    exact .inr (.inl ⟨a, address, bytes, off, rfl, hw, h⟩)
  | tick => exact .inr (.inr (.inl ⟨rfl, h⟩))
  | reset => exact .inr (.inr (.inr ⟨rfl, by cases h; rfl⟩))

/-- An instruction leaves the planned inputs alone. -/
theorem exec_inputs {i : Instr} {s t : State} (h : exec i s = .next t) : t.inputs = s.inputs := by
  rcases exec_cases h with ⟨_, _, rfl⟩ | ⟨_, rfl⟩ | ⟨_, _, -, rfl⟩ | ⟨_, -, rfl⟩ | rfl | rfl | ⟨-, rfl⟩ |
    ⟨-, rfl | rfl | rfl⟩ <;> rfl

/-- The engine's turn leaves the planned inputs alone. -/
theorem engineTurn_inputs {s t : State} (h : engineTurn s = .next t) : t.inputs = s.inputs := by
  rcases engineTurn_cases h with ⟨-, rfl⟩ | ⟨-, -, rfl⟩ | ⟨-, -, rfl⟩ <;> rfl

/-- One input leaves the planned inputs alone. -/
theorem stepInput_inputs {i : Input} {s t : State} (h : stepInput i s = .next t) : t.inputs = s.inputs := by
  rcases stepInput_cases h with ⟨_, -, h⟩ | ⟨_, _, _, _, -, -, h⟩ | ⟨-, h⟩ | ⟨-, rfl⟩
  · exact exec_inputs h
  · exact exec_inputs h
  · exact engineTurn_inputs h
  · rfl

@[simp] theorem runInputs_nil (s : State) : runInputs [] s = .next s := rfl

/-- One input, then the rest. -/
theorem runInputs_cons_of_next {i : Input} {is : List Input} {s t : State} (h : stepInput i s = .next t) :
    runInputs (i :: is) s = runInputs is t := by simp [runInputs, h]

/-- A run that answers a next state passes its first input. -/
theorem runInputs_cons_inv {i : Input} {is : List Input} {s u : State} (h : runInputs (i :: is) s = .next u) :
    ∃ t, stepInput i s = .next t ∧ runInputs is t = .next u := by
  unfold runInputs at h
  cases hs : stepInput i s with
  | next t => rw [hs] at h; exact ⟨t, rfl, h⟩
  | fault f => rw [hs] at h; cases h
  | refused e => rw [hs] at h; cases h

/-- A run of two lists is the run of the first, then of the second. -/
theorem runInputs_append_of_next {is js : List Input} {s t : State} (h : runInputs is s = .next t) :
    runInputs (is ++ js) s = runInputs js t := by
  induction is generalizing s with
  | nil => cases h; rfl
  | cons i is ih =>
    obtain ⟨u, hu, h⟩ := runInputs_cons_inv h
    rw [List.cons_append, runInputs_cons_of_next hu]
    exact ih h

/-- A run of two lists that answers a next state passes through one after the first list. -/
theorem runInputs_append_inv {is js : List Input} {s u : State} (h : runInputs (is ++ js) s = .next u) :
    ∃ t, runInputs is s = .next t ∧ runInputs js t = .next u := by
  induction is generalizing s with
  | nil => exact ⟨s, rfl, h⟩
  | cons i is ih =>
    obtain ⟨v, hv, h⟩ := runInputs_cons_inv h
    obtain ⟨t, ht, h⟩ := ih h
    exact ⟨t, by rw [runInputs_cons_of_next hv, ht], h⟩

/-- A step with a planned input. -/
theorem step_of_cons {s : State} {i : Input} {rest : List Input} (h : s.inputs = i :: rest) :
    step s = stepInput i (s.withInputs rest) := by simp [step, stepPlanned, h]

/-- A step with nothing planned. -/
theorem step_of_nil {s : State} (h : s.inputs = []) : step s = engineTurn s := by
  simp [step, stepPlanned, h]

/-- Everything a step can do when it answers a next state. -/
theorem step_cases {s t : State} (h : step s = .next t) :
    (s.inputs = [] ∧ engineTurn s = .next t) ∨
    (∃ i rest, s.inputs = i :: rest ∧ stepInput i (s.withInputs rest) = .next t) := by
  cases hi : s.inputs with
  | nil => exact .inl ⟨rfl, (step_of_nil hi).symm.trans h⟩
  | cons i rest => exact .inr ⟨i, rest, rfl, (step_of_cons hi).symm.trans h⟩

end Sys2Proof.Machine
end

