-- ==== Sys2Proof/Laws/Engine.lean ====
section
/-! SUPPORT. Laws/Engine.lean: what an instruction and the engine's turn do to the engine's invariant and to an in-flight
COMPRESS (Safety.lean). -/

namespace Sys2Proof.Machine

@[simp] theorem stepInput_packet (p : Packet) (s : State) : stepInput (.packet p) s = exec (decode p) s := rfl
@[simp] theorem stepInput_tick (s : State) : stepInput .tick s = engineTurn s := rfl
@[simp] theorem stepInput_reset (s : State) : stepInput .reset s = .next (resetBlock s) := rfl

@[simp] theorem engineInv_withInputs {s : State} {is : List Input} : EngineInv (s.withInputs is) ↔ EngineInv s := Iff.rfl

/-- No instruction disturbs the engine's invariant. -/
theorem engineInv_exec {i : Instr} {s t : State} (hs : EngineInv s) (h : exec i s = .next t) : EngineInv t := by
  obtain ⟨hr, hb⟩ := hs
  rcases exec_cases h with ⟨_, _, rfl⟩ | ⟨_, rfl⟩ | ⟨_, _, -, rfl⟩ | ⟨_, -, rfl⟩ | rfl | rfl | ⟨-, rfl⟩ |
    ⟨hi, rfl | rfl | rfl⟩
  case inr.inr.inr.inl =>
    refine ⟨hr, fun h => ?_⟩
    obtain ⟨a, b, c, d⟩ := hb h
    exact ⟨a, by simp [answerWrite, b], c, d⟩
  case inr.inr.inr.inr.inr.inr.inr.inl =>
    exact ⟨hr, fun h => by rw [show (runInit s).status.busy = s.status.busy from rfl, hi] at h; cases h⟩
  case inr.inr.inr.inr.inr.inr.inr.inr.inl =>
    exact ⟨by simp [runCompress, answerWrite], fun _ => ⟨by simp [runCompress, answerWrite], rfl, rfl, rfl⟩⟩
  case inr.inr.inr.inr.inr.inr.inr.inr.inr =>
    exact ⟨hr, fun h => by rw [show (runLoadH s).status.busy = s.status.busy from rfl, hi] at h; cases h⟩
  all_goals exact ⟨hr, hb⟩

/-- The engine's turn keeps the engine's invariant. -/
theorem engineInv_engineTurn {s t : State} (hs : EngineInv s) (h : engineTurn s = .next t) : EngineInv t := by
  obtain ⟨hr, hb⟩ := hs
  rcases engineTurn_cases h with ⟨-, rfl⟩ | ⟨h1, h2, rfl⟩ | ⟨h1, h2, rfl⟩
  · exact ⟨hr, hb⟩
  · obtain ⟨a, b, c, d⟩ := hb h1
    have e : (BitVec.ofNat 4 (s.r.toNat + 1)).toNat = s.r.toNat + 1 := by simp; omega
    refine ⟨by simp only [State.withRound_r, e]; omega, fun _ => ?_⟩
    simp only [State.withRound_r, e, State.withRound_k, State.withRound_ws, State.withRound_h, State.withRound_ml,
      State.withRound_status]
    exact ⟨by omega, b, by rw [c]; rfl, by rw [d, c]; rfl⟩
  · exact ⟨by simp, fun h => by simp at h⟩

/-- Under the invariant the engine's turn answers a next state (60_exceptions.md R106). -/
theorem engineTurn_next {s : State} (hs : EngineInv s) : ∃ t, engineTurn s = .next t := by
  cases hb : s.status.busy with
  | false => exact ⟨s, engineTurn_of_idle hb⟩
  | true =>
    rw [engineTurn_of_busy hb]
    have := (hs.2 hb).1
    rcases Nat.lt_or_ge s.r.toNat 9 with h | h
    · exact ⟨_, tick_of_lt h⟩
    · exact ⟨_, tick_of_nine (by omega)⟩

/-- A busy state of the invariant is an in-flight COMPRESS of its own H and ML. -/
theorem inFlight_of_engineInv {s : State} (hs : EngineInv s) (hb : s.status.busy = true) :
    InFlight s.h (gridToBlock s.ml) s.r.toNat s := by
  obtain ⟨a, -, c, d⟩ := hs.2 hb
  exact ⟨hb, a, rfl, c, by simpa using d, by simp, rfl⟩

/-- Acceptance starts the pipeline (41_compression.md R71). -/
theorem inFlight_runCompress (s : State) : InFlight s.h s.msg 0 (runCompress s) :=
  ⟨rfl, by omega, rfl, rfl, rfl, rfl, rfl⟩

theorem exec_compress_of_idle {s : State} (h : s.status.busy = false) : exec .compress s = .next (runCompress s) := by
  simp [exec, execCompress, whenIdle_of_idle h]

/-- No instruction disturbs an in-flight COMPRESS. -/
theorem inFlight_exec {h0 : Grid} {m : Block} {k : Nat} {i : Instr} {s t : State} (hs : InFlight h0 m k s)
    (h : exec i s = .next t) : InFlight h0 m k t := by
  obtain ⟨a, b, c, d, e, f, g⟩ := hs
  rcases exec_cases h with ⟨_, _, rfl⟩ | ⟨_, rfl⟩ | ⟨_, _, -, rfl⟩ | ⟨_, -, rfl⟩ | rfl | rfl | ⟨-, rfl⟩ | ⟨hi, -⟩
  all_goals first | exact ⟨a, b, c, d, e, f, g⟩ | (rw [hi] at a; cases a)

/-- A tick before the tenth advances the pipeline by one round and nothing the host sees (R72). -/
theorem inFlight_tick {h0 : Grid} {m : Block} {k : Nat} {s : State} (hs : InFlight h0 m k s) (hk : k < 9) :
    ∃ t, engineTurn s = .next t ∧ InFlight h0 m (k + 1) t ∧ t.msg = s.msg ∧ t.status = s.status ∧
      t.inputs = s.inputs ∧ t.reply = s.reply := by
  obtain ⟨a, b, c, d, e, f, g⟩ := hs
  refine ⟨_, (engineTurn_of_busy a).trans (tick_of_lt (by omega)), ⟨a, by omega, ?_, ?_, ?_, f, g⟩, rfl, rfl, rfl, rfl⟩
  · simp [c]; omega
  · simp only [State.withRound_k, c, d]; rfl
  · simp only [State.withRound_ws, c, d, e]; rfl

/-- The tenth tick's whole effect (R73). -/
theorem inFlight_last {h0 : Grid} {m : Block} {s : State} (hs : InFlight h0 m 9 s) :
    ∃ t, engineTurn s = .next t ∧ t.h = compressGrid h0 (blockToGrid m) ∧
      t.status = { s.status with busy := false, done := true } ∧ t.msg = s.msg ∧ t.k = roundKey h0 10 ∧
      t.ws = cipherState h0 (blockToGrid m) 10 ∧ t.ml = blockToGrid m ∧ t.r = 10#4 ∧ t.inputs = s.inputs ∧
      t.reply = s.reply := by
  obtain ⟨a, b, c, d, e, f, g⟩ := hs
  refine ⟨_, (engineTurn_of_busy a).trans (tick_of_nine c), ?_, rfl, rfl, ?_, ?_, f, rfl, rfl, rfl⟩
  · simp only [finalTick_h, State.withRound_ws, State.withRound_h, State.withRound_ml, d, e, f, g]; rfl
  · simp only [finalTick_k, State.withRound_k, d]; rfl
  · simp only [finalTick_ws, State.withRound_ws, d, e]; rfl

/-- Ticks that don't reach the tenth. -/
theorem inFlight_ticks (j : Nat) {k : Nat} {h0 : Grid} {m : Block} {s : State} (hs : InFlight h0 m k s)
    (hk : k + j < 10) :
    ∃ t, runInputs (List.replicate j .tick) s = .next t ∧ InFlight h0 m (k + j) t ∧ t.msg = s.msg ∧
      t.status = s.status ∧ t.inputs = s.inputs ∧ t.reply = s.reply := by
  induction j generalizing k s with
  | zero => exact ⟨s, rfl, hs, rfl, rfl, rfl, rfl⟩
  | succ j ih =>
    obtain ⟨t, e, ht, h1, h2, h3, h4⟩ := inFlight_tick hs (by omega)
    obtain ⟨u, e', hu, g1, g2, g3, g4⟩ := ih ht (by omega)
    refine ⟨u, ?_, by rw [show k + (j + 1) = k + 1 + j by omega]; exact hu, g1.trans h1, g2.trans h2, g3.trans h3,
      g4.trans h4⟩
    rw [List.replicate_succ, runInputs_cons_of_next (i := .tick) e, e']

end Sys2Proof.Machine
end

