-- ==== Sys2Proof/Laws/Protocol.lean ====
section
/-! SUPPORT. Laws/Protocol.lean: one lemma per host operation of Machine/HostProtocol.lean: the accesses, `ldmsg`,
`rdhash`, the commands, the engine's turns and `wait`. -/

namespace Sys2Proof.Machine

theorem applyInput_of_next {i : Input} {s t : State} (h : stepInput i s = .next t) : applyInput i s = some t := by
  simp [applyInput, h]

/-! ### The registers' offsets (20_memory.md R35) decode to their transactions -/

theorem decode_write_msg (n : BitVec 4) (d : Word) : decode (busx (.write d) (msgOffset n)) = .wrMsg n d := by
  have h : ∀ n : BitVec 4, (1#1 ++ msgOffset n).extractLsb' 8 1 = 1#1 ∧ (1#1 ++ msgOffset n).extractLsb' 0 2 = 0#2 ∧
    (1#1 ++ msgOffset n).extractLsb' 2 4 = n ∧ (1#1 ++ msgOffset n).extractLsb' 6 2 = 0#2 := by decide
  simp [decode, busx, decodeBusx, decodeAccess, h n]

theorem decode_read_hash (n : BitVec 4) : decode (busx .read (hashOffset n)) = .rdHash n := by
  have h : ∀ n : BitVec 4, (0#1 ++ hashOffset n).extractLsb' 8 1 = 0#1 ∧ (0#1 ++ hashOffset n).extractLsb' 0 2 = 0#2 ∧
    (0#1 ++ hashOffset n).extractLsb' 2 4 = n ∧ (0#1 ++ hashOffset n).extractLsb' 6 2 = 1#2 := by decide
  simp [decode, busx, decodeBusx, decodeAccess, h n]

theorem decode_write_cmd (d : Word) : decode (busx (.write d) cmdOffset) = .wrCmd d := by
  simp [decode, busx, decodeBusx, decodeAccess, cmdOffset]

theorem decode_read_status : decode (busx .read statusOffset) = .rdStatus := by decide

theorem decode_read_info : decode (busx .read infoOffset) = .rdInfo := by decide

/-! ### Accesses -/

theorem hostWrite_msg (n : BitVec 4) (d : Word) (s : State) :
    hostWrite (msgOffset n) d s = some (answerWrite (s.withMsg (setBlockWord s.msg n d))) :=
  applyInput_of_next (by rw [stepInput_packet, decode_write_msg]; rfl)

theorem hostRead_hash (n : BitVec 4) (s : State) :
    hostRead (hashOffset n) s = some (blockWord (gridToBlock s.h) n, answerRead (blockWord (gridToBlock s.h) n) s) := by
  have h : applyInput (.packet (busx .read (hashOffset n))) s = some (answerRead (blockWord (gridToBlock s.h) n) s) :=
    applyInput_of_next (by rw [stepInput_packet, decode_read_hash]; rfl)
  simp [hostRead, h, answerRead]

theorem hostRead_status (s : State) : hostRead statusOffset s = some (s.status.word, answerRead s.status.word s) := by
  have h : applyInput (.packet (busx .read statusOffset)) s = some (answerRead s.status.word s) :=
    applyInput_of_next (by rw [stepInput_packet, decode_read_status]; rfl)
  simp [hostRead, h, answerRead]

theorem hostCmd_eq (v : Word) (s : State) : hostCmd v s = some (cmdWrite v s) := by
  rw [hostCmd, hostWrite]
  exact applyInput_of_next (by rw [stepInput_packet, decode_write_cmd]; rfl)

theorem hostCmd_init {s : State} (h : s.status.busy = false) : hostCmd 1#32 s = some (runInit s) := by
  simp [hostCmd_eq, cmdWrite, h]

theorem hostCmd_compress {s : State} (h : s.status.busy = false) : hostCmd 2#32 s = some (runCompress s) := by
  simp [hostCmd_eq, cmdWrite, h]

theorem hostCmd_loadH {s : State} (h : s.status.busy = false) : hostCmd 3#32 s = some (runLoadH s) := by
  simp [hostCmd_eq, cmdWrite, h]

/-- Bit 0 of the STATUS word is BUSY (42_commands.md R89). -/
theorem statusWord_busy (st : Status) : st.word.getLsbD 0 = st.busy := by
  cases st with
  | mk a b c d e => cases a <;> cases b <;> cases c <;> cases d <;> cases e <;> rfl

theorem mem_registerNumbers (n : BitVec 4) : n ∈ registerNumbers := by revert n; decide

/-- Writing some of a block's register words: MSG takes those words, everything else but the reply stays. -/
theorem foldlM_hostWrite_msg (b : Block) (ns : List (BitVec 4)) (s : State) :
    ∃ (m : Block) (rep : Option Reply),
      ns.foldlM (fun t n => hostWrite (msgOffset n) (blockWord b n) t) s = some ((s.withMsg m).withReply rep) ∧
      ∀ n, blockWord m n = if n ∈ ns then blockWord b n else blockWord s.msg n := by
  induction ns generalizing s with
  | nil => exact ⟨s.msg, s.reply, rfl, by simp⟩
  | cons n ns ih =>
    obtain ⟨m, rep, e, h⟩ := ih (answerWrite (s.withMsg (setBlockWord s.msg n (blockWord b n))))
    refine ⟨m, rep, ?_, ?_⟩
    · rw [List.foldlM_cons, hostWrite_msg]; exact e
    · intro k
      rw [h k]
      have : (answerWrite (s.withMsg (setBlockWord s.msg n (blockWord b n)))).msg =
        setBlockWord s.msg n (blockWord b n) := rfl
      rw [this, blockWord_setBlockWord]
      by_cases hk : k = n
      · subst hk; simp
      · simp [hk]

/-- `ldmsg b` leaves MSG = b and changes nothing else but the reply (30_encoding.md R54). -/
theorem ldmsg_eq (b : Block) (s : State) : ∃ rep, ldmsg b s = some ((s.withMsg b).withReply rep) := by
  obtain ⟨m, rep, e, h⟩ := foldlM_hostWrite_msg b registerNumbers s
  have hm : m = b := block_ext_words fun n => by simpa [mem_registerNumbers] using h n
  exact ⟨rep, by rw [ldmsg, e, hm]⟩

/-- Reading some of H's register words into a block. -/
theorem foldlM_hostRead_hash (ns : List (BitVec 4)) (d : Block) (s : State) :
    ∃ (d' : Block) (rep : Option Reply),
      ns.foldlM (fun (p : Block × State) n => do
        let (w, t') ← hostRead (hashOffset n) p.2
        return (setBlockWord p.1 n w, t')) (d, s) = some (d', s.withReply rep) ∧
      ∀ n, blockWord d' n = if n ∈ ns then blockWord (gridToBlock s.h) n else blockWord d n := by
  induction ns generalizing d s with
  | nil => exact ⟨d, s.reply, rfl, by simp⟩
  | cons n ns ih =>
    obtain ⟨d', rep, e, h⟩ := ih (setBlockWord d n (blockWord (gridToBlock s.h) n))
      (answerRead (blockWord (gridToBlock s.h) n) s)
    refine ⟨d', rep, ?_, ?_⟩
    · rw [List.foldlM_cons, hostRead_hash]; exact e
    · intro k
      rw [h k, show (answerRead (blockWord (gridToBlock s.h) n) s).h = s.h from rfl, blockWord_setBlockWord]
      by_cases hk : k = n
      · subst hk; simp
      · simp [hk]

/-- `rdhash` returns μ⁻¹(H) and changes nothing but the reply (30_encoding.md R54). -/
theorem rdhash_eq (s : State) : ∃ rep, rdhash s = some (gridToBlock s.h, s.withReply rep) := by
  obtain ⟨d, rep, e, h⟩ := foldlM_hostRead_hash registerNumbers zeroBlock s
  have hd : d = gridToBlock s.h := block_ext_words fun n => by simpa [mem_registerNumbers] using h n
  exact ⟨rep, by rw [rdhash, ← hd]; exact e⟩

/-- `ldmsg x; cmd LOAD_H` while idle: H = μ(x). -/
theorem hostLoad_eq (x : Block) {s : State} (h : s.status.busy = false) :
    ∃ t, hostLoad x s = some t ∧ t.h = blockToGrid x ∧ t.msg = x ∧ t.status = { s.status with done := true } := by
  obtain ⟨rep, e⟩ := ldmsg_eq x s
  refine ⟨_, by rw [hostLoad, e]; exact hostCmd_loadH (s := (s.withMsg x).withReply rep) h, rfl, rfl, rfl⟩

/-- Turns of an idle engine. -/
theorem engineTurns_of_idle (k : Nat) {s : State} (h : s.status.busy = false) : engineTurns k s = some s := by
  induction k with
  | zero => rfl
  | succ k ih =>
    rw [engineTurns, applyInput_of_next (i := .tick) (engineTurn_of_idle h)]
    exact ih

/-- Turns of an in-flight COMPRESS: it is still in flight while they are too few, and finished with the same result
once they suffice. -/
theorem engineTurns_of_inFlight (n : Nat) {k : Nat} {h0 : Grid} {m : Block} {s : State} (hs : InFlight h0 m k s) :
    ∃ t, engineTurns n s = some t ∧ t.msg = s.msg ∧
      ((k + n < 10 ∧ InFlight h0 m (k + n) t ∧ t.status = s.status) ∨
       (10 ≤ k + n ∧ t.h = compressGrid h0 (blockToGrid m) ∧
         t.status = { s.status with busy := false, done := true })) := by
  induction n generalizing k s with
  | zero => exact ⟨s, rfl, rfl, .inl ⟨hs.2.1, hs, rfl⟩⟩
  | succ n ih =>
    rcases Nat.lt_or_ge k 9 with hk | hk
    · obtain ⟨t, e, ht, h1, h2, -⟩ := inFlight_tick hs hk
      obtain ⟨u, e', hm, h⟩ := ih ht
      refine ⟨u, ?_, hm.trans h1, ?_⟩
      · rw [engineTurns, applyInput_of_next (i := .tick) e]; exact e'
      · rw [h2, show k + 1 + n = k + (n + 1) by omega] at h; exact h
    · have hk9 : k = 9 := by have := hs.2.1; omega
      subst hk9
      obtain ⟨t, e, h1, h2, h3, -⟩ := inFlight_last hs
      refine ⟨t, ?_, h3, .inr ⟨by omega, h1, h2⟩⟩
      rw [engineTurns, applyInput_of_next (i := .tick) e]
      exact engineTurns_of_idle n (by rw [h2])

/-- A wait on an idle block ends at its first read. -/
theorem waitIdle_of_idle {k : Nat} {ks : List Nat} {s : State} (h : s.status.busy = false) :
    ∃ rep, waitIdle (k :: ks) s = some (s.withReply rep) := by
  refine ⟨some ⟨.ok, some s.status.word, none⟩, ?_⟩
  simp only [waitIdle, engineTurns_of_idle k h, Option.bind_eq_bind, Option.bind_some, hostRead_status,
    statusWord_busy, h]
  rfl

/-- A wait on an in-flight COMPRESS whose schedule holds the ticks still missing ends with its result. -/
theorem waitIdle_of_inFlight (ks : List Nat) {k : Nat} {h0 : Grid} {m : Block} {s : State} (hs : InFlight h0 m k s)
    (hk : 10 ≤ k + ks.sum) :
    ∃ t, waitIdle ks s = some t ∧ t.msg = s.msg ∧ t.h = compressGrid h0 (blockToGrid m) ∧
      t.status = { s.status with busy := false, done := true } := by
  induction ks generalizing k s with
  | nil => have := hs.2.1; simp at hk; omega
  | cons n ks ih =>
    obtain ⟨t, e, hm, h⟩ := engineTurns_of_inFlight n hs
    rcases h with ⟨hlt, ht, hst⟩ | ⟨hge, hh, hst⟩
    · have hb : t.status.busy = true := ht.1
      obtain ⟨u, e', h1, h2, h3⟩ := ih (s := answerRead t.status.word t) (k := k + n) ht
        (by rw [List.sum_cons] at hk; omega)
      refine ⟨u, ?_, h1.trans hm, h2, h3.trans (by rw [← hst]; rfl)⟩
      simp only [waitIdle, e, Option.bind_eq_bind, Option.bind_some, hostRead_status, statusWord_busy, hb, if_true]
      exact e'
    · refine ⟨answerRead t.status.word t, ?_, hm, hh, hst⟩
      simp only [waitIdle, e, Option.bind_eq_bind, Option.bind_some, hostRead_status, statusWord_busy, hst]
      rfl

/-- `ldmsg b; cmd COMPRESS; wait` while idle: H = f(H, b). -/
theorem hostCompress_eq (ks : List Nat) (b : Block) {s : State} (h : s.status.busy = false) (hk : 10 ≤ ks.sum) :
    ∃ t, hostCompress ks b s = some t ∧ t.msg = b ∧ gridToBlock t.h = compressBlock (gridToBlock s.h) b ∧
      t.status = { s.status with busy := false, done := true } := by
  obtain ⟨rep, e⟩ := ldmsg_eq b s
  have hc := hostCmd_compress (s := (s.withMsg b).withReply rep) h
  obtain ⟨t, e', h1, h2, h3⟩ := waitIdle_of_inFlight ks (inFlight_runCompress ((s.withMsg b).withReply rep)) (by omega)
  refine ⟨t, ?_, h1, ?_, h3⟩
  · simp only [hostCompress, e, hc, Option.bind_eq_bind, Option.bind_some]; exact e'
  · rw [h2, compressBlock_gridToBlock]; rfl

end Sys2Proof.Machine
end

