-- ==== Sys2Proof/Laws/Digest.lean ====
section
/-! SUPPORT. Laws/Digest.lean: cutting a byte list into 64-byte blocks, what the digest engine's `update` does, and what
saving does to the engines that share a block. -/

namespace Sys2Proof.Machine

theorem be256_length (len : BitVec 256) : (be256 len).length = 32 := by simp [be256]

/-- After `padZeros` zero bytes the length is 32 mod 64 (45_host_protocol.md R98). -/
theorem padZeros_spec (n : Nat) : (n + padZeros n) % 64 = 32 := by unfold padZeros; omega

/-- Blocks that lie in the first part do not see the second. -/
theorem blocksOf_append (n : Nat) (a b : List Byte) (h : 64 * n ≤ a.length) : blocksOf n (a ++ b) = blocksOf n a := by
  induction n generalizing a with
  | zero => rfl
  | succ n ih =>
    have hb : blockOfList (a ++ b) = blockOfList a := by
      apply block_ext
      intro k
      simp [blockOfList, List.getElem?_append_left (show k.val < a.length by omega)]
    rw [blocksOf, blocksOf, List.drop_append_of_le_length (by omega), ih _ (by simp; omega), hb]

theorem blocksOf_add (n m : Nat) (a : List Byte) :
    blocksOf (n + m) a = blocksOf n a ++ blocksOf m (a.drop (64 * n)) := by
  induction n generalizing a with
  | zero => simp [blocksOf]
  | succ n ih =>
    rw [show n + 1 + m = (n + m) + 1 by omega]
    simp only [blocksOf, ih, List.cons_append, List.drop_drop]
    rw [show 64 + 64 * n = 64 * (n + 1) by omega]

/-- A first part of whole blocks is cut on its own. -/
theorem wholeBlocks_append (a b : List Byte) (h : a.length % 64 = 0) :
    wholeBlocks (a ++ b) = wholeBlocks a ++ wholeBlocks b := by
  unfold wholeBlocks
  rw [List.length_append, show (a.length + b.length) / 64 = a.length / 64 + b.length / 64 by omega, blocksOf_add,
    blocksOf_append _ _ _ (by omega), show 64 * (a.length / 64) = a.length by omega, List.drop_left]

/-- The bytes after the last whole block do not matter to the whole blocks. -/
theorem wholeBlocks_take (x : List Byte) : wholeBlocks (x.take (64 * (x.length / 64))) = wholeBlocks x := by
  unfold wholeBlocks
  have hlt : (x.take (64 * (x.length / 64))).length = 64 * (x.length / 64) := by simp; omega
  rw [hlt, show 64 * (x.length / 64) / 64 = x.length / 64 by omega,
    ← blocksOf_append (x.length / 64) (x.take _) (x.drop (64 * (x.length / 64))) (by omega), List.take_append_drop]

@[simp] theorem gridToBlock_zeroGrid : gridToBlock zeroGrid = zeroBlock := by
  apply block_ext
  intro k
  simp

/-- Consuming `n` blocks of the buffer while idle (45_host_protocol.md R96). -/
theorem consumeBlocks_eq {ks : List Nat} (hk : 10 ≤ ks.sum) (n : Nat) (e : Engine) {s : State}
    (hb : s.status.busy = false) :
    ∃ t, consumeBlocks ks n e s =
        some ({ e with buf := e.buf.drop (64 * n), count := e.count + BitVec.ofNat 256 (512 * n) }, t) ∧
      t.status.busy = false ∧
      gridToBlock t.h = (blocksOf n e.buf).foldl compressBlock (gridToBlock s.h) := by
  induction n generalizing e s with
  | zero => exact ⟨s, by simp [consumeBlocks], hb, rfl⟩
  | succ n ih =>
    obtain ⟨t, e1, h1, h2, h3⟩ := hostCompress_eq ks (blockOfList e.buf) hb hk
    obtain ⟨u, e2, g1, g2⟩ := ih { e with buf := e.buf.drop 64, count := e.count + 512#256 } (s := t) (by rw [h3])
    refine ⟨u, ?_, g1, by rw [g2, h2, blocksOf, List.foldl_cons]⟩
    simp only [consumeBlocks, e1, Option.bind_eq_bind, Option.bind_some, e2]
    rw [List.drop_drop, BitVec.add_assoc, ← BitVec.ofNat_add, show 64 + 64 * n = 64 * (n + 1) by omega,
      show 512 + 512 * n = 512 * (n + 1) by omega]

/-- `update` of a resident engine while idle (45_host_protocol.md R96). -/
theorem update_eq {ks : List Nat} (hk : 10 ≤ ks.sum) (e : Engine) (b : List Byte) {s : State}
    (he : e.home = .resident) (hb : s.status.busy = false) :
    ∃ t, e.update ks b s =
        some ({ e with buf := (e.buf ++ b).drop (64 * ((e.buf ++ b).length / 64)),
                       count := e.count + BitVec.ofNat 256 (512 * ((e.buf ++ b).length / 64)) }, t) ∧
      t.status.busy = false ∧
      gridToBlock t.h = (wholeBlocks (e.buf ++ b)).foldl compressBlock (gridToBlock s.h) := by
  obtain ⟨t, e1, h1, h2⟩ := consumeBlocks_eq hk ((e.buf ++ b).length / 64) { e with buf := e.buf ++ b } hb
  refine ⟨t, ?_, h1, h2⟩
  simp only [he] at e1
  simp only [Engine.update, he]
  rw [e1]

/-! ### Engines that share one block -/

/-- An engine as it is once it is saved from a block whose chaining value is `h`. -/
def Engine.demoted (h : Grid) (e : Engine) : Engine :=
  if e.isResident then { e with home := .saved (gridToBlock h) } else e

@[simp] theorem isResident_demoted (h : Grid) (e : Engine) : (e.demoted h).isResident = false := by
  unfold Engine.demoted
  split
  · rfl
  · simp_all

theorem demoted_of_resident {h : Grid} {e : Engine} (he : e.home = .resident) :
    e.demoted h = { e with home := .saved (gridToBlock h) } := by
  simp [Engine.demoted, Engine.isResident, he]

theorem demoted_of_saved {h : Grid} {e : Engine} {x : Block} (he : e.home = .saved x) : e.demoted h = e := by
  simp [Engine.demoted, Engine.isResident, he]

/-- Saving one engine while idle: nothing of the block but the reply changes. -/
theorem save_eq (e : Engine) {s : State} (hb : s.status.busy = false) :
    ∃ rep, e.save s = some (e.demoted s.h, s.withReply rep) := by
  cases he : e.home with
  | resident =>
    obtain ⟨rep, er⟩ := rdhash_eq s
    exact ⟨rep, by simp [Engine.save, he, hb, er, demoted_of_resident he]⟩
  | saved x => exact ⟨s.reply, by rw [Engine.save, he, demoted_of_saved he]; rfl⟩

/-- Saving the engines of a list while idle. -/
theorem saveEngines_eq (es : List Engine) {s : State} (hb : s.status.busy = false) :
    ∃ rep, saveEngines es s = some (es.map (Engine.demoted s.h), s.withReply rep) := by
  induction es generalizing s with
  | nil => exact ⟨s.reply, rfl⟩
  | cons e es ih =>
    obtain ⟨rep, h1⟩ := save_eq e hb
    obtain ⟨rep', h2⟩ := ih (s := s.withReply rep) hb
    exact ⟨rep', by simp only [saveEngines, h1, h2, Option.bind_eq_bind, Option.bind_some]; rfl⟩

/-- Whenever saving answers, no engine is resident. -/
theorem saveEngines_none_resident {es es' : List Engine} {s t : State} (h : saveEngines es s = some (es', t)) :
    es'.countP Engine.isResident = 0 := by
  induction es generalizing es' s with
  | nil => cases h; rfl
  | cons e es ih =>
    simp only [saveEngines, Option.bind_eq_bind, Option.bind_eq_some_iff, Prod.exists, Option.pure_def,
      Option.some.injEq, Prod.mk.injEq] at h
    obtain ⟨e', u, h1, es'', v, h2, rfl, rfl⟩ := h
    have he' : e'.isResident = false := by
      unfold Engine.save at h1
      split at h1
      · simp only [Option.bind_eq_bind, Option.bind_eq_some_iff, Prod.exists, Option.pure_def, Option.some.injEq,
          Prod.mk.injEq] at h1
        obtain ⟨x, w, -, rfl, rfl⟩ := h1
        rfl
      · cases h1
      · rename_i hs
        cases h1
        simp [Engine.isResident, hs]
    simp [he', ih h2]

/-- `update` leaves an engine where it is. -/
theorem consumeBlocks_home {ks : List Nat} {n : Nat} {e e' : Engine} {s t : State}
    (h : consumeBlocks ks n e s = some (e', t)) : e'.home = e.home := by
  induction n generalizing e s with
  | zero => cases h; rfl
  | succ n ih =>
    simp only [consumeBlocks, Option.bind_eq_bind, Option.bind_eq_some_iff] at h
    obtain ⟨u, -, h⟩ := h
    exact (ih h :)

theorem update_home {ks : List Nat} {b : List Byte} {e e' : Engine} {s t : State}
    (h : e.update ks b s = some (e', t)) : e'.home = e.home := by
  unfold Engine.update at h
  split at h
  · exact (consumeBlocks_home h :)
  · cases h

theorem updateAt_of_update {ks : List Nat} {n : Nat} {b : List Byte} {es : List Engine} {e e' : Engine} {s t : State}
    (hn : es[n]? = some e) (h : e.update ks b s = some (e', t)) : updateAt ks n b es s = some (es.set n e', t) := by
  simp [updateAt, hn, h]

theorem digestAt_eq {ks : List Nat} {n : Nat} {es : List Engine} {e : Engine} (hn : es[n]? = some e) (s : State) :
    digestAt ks n es s = e.digest ks s := by
  simp [digestAt, hn]

/-- `new` while idle: every engine of the list is saved, the new one is the last. -/
theorem newEngine_eq (es : List Engine) {s : State} (hb : s.status.busy = false) :
    ∃ rep, newEngine es s = some (es.map (Engine.demoted s.h) ++ [freshEngine], runInit (s.withReply rep)) := by
  obtain ⟨rep, h⟩ := saveEngines_eq es hb
  have hi := hostCmd_init (s := s.withReply rep) hb
  exact ⟨rep, by simp only [newEngine, h, hi, Option.bind_eq_bind, Option.bind_some]; rfl⟩

/-- `make_resident` of a saved engine while idle: every other engine is saved, and H is the snapshot. -/
theorem makeResidentAt_eq {n : Nat} {es : List Engine} {e : Engine} {x : Block} {s : State} (hn : es[n]? = some e)
    (he : e.home = .saved x) (hb : s.status.busy = false) :
    ∃ t, makeResidentAt n es s =
        some ((es.map (Engine.demoted s.h)).set n { e with home := .resident }, t) ∧
      t.h = blockToGrid x ∧ t.status.busy = false := by
  obtain ⟨rep, h⟩ := saveEngines_eq es hb
  obtain ⟨t, h1, h2, h3, h4⟩ := hostLoad_eq x (s := s.withReply rep) hb
  refine ⟨t, ?_, h2, by rw [h4]; exact hb⟩
  simp only [makeResidentAt, hn, Option.bind_eq_bind, Option.bind_some, he, hb, h, h1]
  rfl

end Sys2Proof.Machine
end

