-- ==== Sys2Proof/Laws/PerInstr.lean ====
section
/-! SUPPORT. Laws/PerInstr.lean: statements made once per constructor of Instr, about the instruction as syntax. -/

namespace Sys2Proof.Laws.EncodedRow

/-- The words of a well-formed instruction are selected by its own row of the opcode table (30_encoding.md R50, R52). -/
def Statement (i : Instr) : Prop :=
  i.wf = true → ∃ row, opcodeTable[i.rowIndex.val]? = some row ∧ row.selects (encode i) = true

theorem nop : Statement .nop := fun _ => ⟨_, rfl, by rfl⟩

theorem init : Statement .init := fun _ => ⟨_, rfl, by rfl⟩

theorem compress : Statement .compress := fun _ => ⟨_, rfl, by rfl⟩

theorem loadH : Statement .loadH := fun _ => ⟨_, rfl, by rfl⟩

theorem illegalOp47 (low : BitVec 2) : Statement (.illegalOp47 low) := fun _ => ⟨_, rfl, by revert low; decide⟩

theorem illegalOp8F (low : BitVec 3) : Statement (.illegalOp8F low) := fun _ => ⟨_, rfl, by revert low; decide⟩

theorem illegalRsvd (rsvd : BitVec 28) (op : BitVec 4) : Statement (.illegalRsvd rsvd op) := by
  intro h
  refine ⟨_, rfl, ?_⟩
  have hr : (rsvd ++ op).extractLsb' 4 28 = rsvd := BitVec.extractLsb'_append_eq_left
  show ((rsvd ++ op).extractLsb' 4 28 != 0#28) = true
  rw [hr]
  exact h

theorem misaligned01 (a : Access) (reg : BitVec 6) : Statement (.misaligned01 a reg) := fun _ => ⟨_, rfl, by cases a <;> simp only [encode, busx, Row.selects] <;> clear * - reg <;> revert reg <;> decide⟩

theorem misaligned10 (a : Access) (reg : BitVec 6) : Statement (.misaligned10 a reg) := fun _ => ⟨_, rfl, by cases a <;> simp only [encode, busx, Row.selects] <;> clear * - reg <;> revert reg <;> decide⟩

theorem misaligned11 (a : Access) (reg : BitVec 6) : Statement (.misaligned11 a reg) := fun _ => ⟨_, rfl, by cases a <;> simp only [encode, busx, Row.selects] <;> clear * - reg <;> revert reg <;> decide⟩

theorem rdMsg (n : BitVec 4) : Statement (.rdMsg n) := fun _ => ⟨_, rfl, by revert n; decide⟩

theorem wrMsg (n : BitVec 4) (d : Word) : Statement (.wrMsg n d) := fun _ => ⟨_, rfl, by simp only [encode, busx, Row.selects]; clear * - n; revert n; decide⟩

theorem rdHash (n : BitVec 4) : Statement (.rdHash n) := fun _ => ⟨_, rfl, by revert n; decide⟩

theorem wrHash (n : BitVec 4) (d : Word) : Statement (.wrHash n d) := fun _ => ⟨_, rfl, by simp only [encode, busx, Row.selects]; clear * - n; revert n; decide⟩

theorem rdCmd : Statement .rdCmd := fun _ => ⟨_, rfl, by rfl⟩

theorem wrCmd (d : Word) : Statement (.wrCmd d) := fun _ => ⟨_, rfl, by rfl⟩

theorem rdStatus : Statement .rdStatus := fun _ => ⟨_, rfl, by rfl⟩

theorem wrStatus (d : Word) : Statement (.wrStatus d) := fun _ => ⟨_, rfl, by rfl⟩

theorem rdInfo : Statement .rdInfo := fun _ => ⟨_, rfl, by rfl⟩

theorem wrInfo (d : Word) : Statement (.wrInfo d) := fun _ => ⟨_, rfl, by rfl⟩

theorem unmapped8C (a : Access) : Statement (.unmapped8C a) := fun _ => ⟨_, rfl, by cases a <;> rfl⟩

theorem unmapped90 (a : Access) (q : BitVec 2) : Statement (.unmapped90 a q) := fun _ => ⟨_, rfl, by cases a <;> simp only [encode, busx, Row.selects] <;> clear * - q <;> revert q <;> decide⟩

theorem unmappedA0 (a : Access) (q : BitVec 3) : Statement (.unmappedA0 a q) := fun _ => ⟨_, rfl, by cases a <;> simp only [encode, busx, Row.selects] <;> clear * - q <;> revert q <;> decide⟩

theorem unmappedC0 (a : Access) (q : BitVec 4) : Statement (.unmappedC0 a q) := fun _ => ⟨_, rfl, by cases a <;> simp only [encode, busx, Row.selects] <;> clear * - q <;> revert q <;> decide⟩

end Sys2Proof.Laws.EncodedRow
end

