-- ==== Sys2Proof/Laws/Words.lean ====
section
/-! SUPPORT. Laws/Words.lean: which word reaches CMD in each case of `exec_cases`, and which offset is refused. -/

namespace Sys2Proof.Machine

/-- The refused rows come from refused offsets (20_memory.md R36). -/
theorem refused_row_offset {i : Instr} {s : State} {c : Cause} {a : Access} (h : exec i s = .next (raiseBusError c a s)) :
    ∃ (a' : Access) (off : BitVec 8), i = decode (busx a' off) ∧ refusedOffset a' off := by
  cases i with
  | misaligned01 a q =>
    exact ⟨a, q ++ 0b01#2, by cases a <;> fin_cases q <;> rfl, .inl (by clear h; revert q; decide)⟩
  | misaligned10 a q =>
    exact ⟨a, q ++ 0b10#2, by cases a <;> fin_cases q <;> rfl, .inl (by clear h; revert q; decide)⟩
  | misaligned11 a q =>
    exact ⟨a, q ++ 0b11#2, by cases a <;> fin_cases q <;> rfl, .inl (by clear h; revert q; decide)⟩
  | unmapped8C a => exact ⟨a, 0x8C#8, by cases a <;> rfl, .inr (.inl (by decide))⟩
  | unmapped90 a q =>
    exact ⟨a, 0b1001#4 ++ q ++ 0b00#2, by cases a <;> fin_cases q <;> rfl, .inr (.inl (by clear h; revert q; decide))⟩
  | unmappedA0 a q =>
    exact ⟨a, 0b101#3 ++ q ++ 0b00#2, by cases a <;> fin_cases q <;> rfl, .inr (.inl (by clear h; revert q; decide))⟩
  | unmappedC0 a q =>
    exact ⟨a, 0b11#2 ++ q ++ 0b00#2, by cases a <;> fin_cases q <;> rfl, .inr (.inl (by clear h; revert q; decide))⟩
  | wrHash n d =>
    exact ⟨.write d, 0b01#2 ++ n ++ 0b00#2, by fin_cases n <;> rfl,
      .inr (.inr ⟨by simp, .inl (by clear h; revert n; decide)⟩)⟩
  | wrInfo d => exact ⟨.write d, 0x88#8, rfl, .inr (.inr ⟨by simp, .inr (by decide)⟩)⟩
  | wrCmd d =>
    injection h with h
    rcases cmdWrite_cases d s with ⟨-, e⟩ | ⟨-, ⟨-, e⟩ | ⟨-, e⟩ | ⟨-, e⟩ | ⟨-, e⟩⟩ <;>
      (rw [e] at h; have hr := congrArg State.reply h; revert hr;
       first | (simp [dropIllegal_eq, runNop_eq, raiseBusError_eq]; done)
             | (cases hb : s.status.busy <;>
                 simp [whenIdle, hb, dropBusy_eq, runInit_eq, runCompress_eq, runLoadH_eq, raiseBusError_eq]))
  | init | compress | loadH =>
    injection h with h
    have hr := congrArg State.reply h
    revert hr
    cases hb : s.status.busy <;>
      simp [whenIdle, hb, dropBusy_eq, runInit_eq, runCompress_eq, runLoadH_eq, raiseBusError_eq]
  | _ => injection h with h; have hr := congrArg State.reply h; simp [raiseBusError_eq, runNop_eq, dropIllegal_eq,
      answerRead_eq, answerWrite_eq] at hr

/-- A word is its v[31:4] and its OP field. -/
theorem word_of_fields {v w : Word} (h : v.extractLsb' 4 28 = w.extractLsb' 4 28)
    (h' : v.extractLsb' 0 4 = w.extractLsb' 0 4) : v = w := by
  apply BitVec.eq_of_toNat_eq
  have h1 := congrArg BitVec.toNat h
  have h2 := congrArg BitVec.toNat h'
  simp only [BitVec.extractLsb'_toNat, Nat.shiftRight_eq_div_pow] at h1 h2
  have := v.isLt
  have := w.isLt
  omega

/-- `exec_cases`, with the word that reached CMD where the case is a command's. -/
theorem exec_word_cases {i : Instr} {s t : State} (h : exec i s = .next t) :
    (∃ c a, t = raiseBusError c a s) ∨
    (∃ d, t = answerRead d s) ∨
    (∃ n d, i = .wrMsg n d ∧ t = answerWrite (s.withMsg (setBlockWord s.msg n d))) ∨
    (∃ d, i = .wrStatus d ∧ t = answerWrite (s.withStatus (s.status.clearBy d))) ∨
    (∃ v, i.wf = false ∨ wordToCmd i = some v ∧ illegalWord v) ∧ t = dropIllegal s ∨
    t = runNop s ∨
    (∃ v, wordToCmd i = some v ∧
      (s.status.busy = true ∧ (v = 1#32 ∨ v = 2#32 ∨ v = 3#32) ∧ t = dropBusy s ∨
       s.status.busy = false ∧ (v = 1#32 ∧ t = runInit s ∨ v = 2#32 ∧ t = runCompress s ∨
        v = 3#32 ∧ t = runLoadH s))) := by
  have idle (v : Word) (run : State → State)
      (hrun : v = 1#32 ∧ run = runInit ∨ v = 2#32 ∧ run = runCompress ∨ v = 3#32 ∧ run = runLoadH)
      (ht : t = whenIdle run s) :
      s.status.busy = true ∧ (v = 1#32 ∨ v = 2#32 ∨ v = 3#32) ∧ t = dropBusy s ∨
       s.status.busy = false ∧ (v = 1#32 ∧ t = runInit s ∨ v = 2#32 ∧ t = runCompress s ∨
        v = 3#32 ∧ t = runLoadH s) := by
    cases hb : s.status.busy with
    | true => exact .inl ⟨rfl, by tauto, ht.trans (whenIdle_of_busy hb)⟩
    | false =>
      rw [whenIdle_of_idle hb] at ht
      refine .inr ⟨rfl, ?_⟩
      rcases hrun with ⟨h, rfl⟩ | ⟨h, rfl⟩ | ⟨h, rfl⟩ <;> tauto
  cases i <;> injection h with h <;> subst h
  case nop => exact .inr (.inr (.inr (.inr (.inr (.inl rfl)))))
  case init => right; right; right; right; right; right; exact ⟨1#32, rfl, idle _ _ (.inl ⟨rfl, rfl⟩) rfl⟩
  case compress =>
    right; right; right; right; right; right; exact ⟨2#32, rfl, idle _ _ (.inr (.inl ⟨rfl, rfl⟩)) rfl⟩
  case loadH => right; right; right; right; right; right; exact ⟨3#32, rfl, idle _ _ (.inr (.inr ⟨rfl, rfl⟩)) rfl⟩
  case illegalOp47 low =>
    exact .inr (.inr (.inr (.inr (.inl ⟨⟨_, .inr ⟨rfl, .inr (by revert low; decide)⟩⟩, rfl⟩))))
  case illegalOp8F low =>
    exact .inr (.inr (.inr (.inr (.inl ⟨⟨_, .inr ⟨rfl, .inr (by revert low; decide)⟩⟩, rfl⟩))))
  case illegalRsvd rsvd op =>
    refine .inr (.inr (.inr (.inr (.inl ⟨⟨rsvd ++ op, ?_⟩, rfl⟩))))
    by_cases hr : rsvd = 0#28
    · exact .inl (by simp [Instr.wf, hr])
    · exact .inr ⟨rfl, .inl (by rwa [show (rsvd ++ op).extractLsb' 4 28 = rsvd from BitVec.extractLsb'_append_eq_left])⟩
  case wrMsg n d => exact .inr (.inr (.inl ⟨n, d, rfl, rfl⟩))
  case wrStatus d => exact .inr (.inr (.inr (.inl ⟨d, rfl, rfl⟩)))
  case wrCmd d =>
    right; right; right; right
    rcases cmdWrite_cases d s with ⟨hi, e⟩ | ⟨hr, ⟨-, e⟩ | ⟨ho, e⟩ | ⟨ho, e⟩ | ⟨ho, e⟩⟩
    · exact .inl ⟨⟨d, .inr ⟨rfl, hi⟩⟩, e⟩
    · exact .inr (.inl e)
    · exact .inr (.inr ⟨d, rfl, idle _ _ (.inl ⟨word_of_fields hr ho, rfl⟩) e⟩)
    · exact .inr (.inr ⟨d, rfl, idle _ _ (.inr (.inl ⟨word_of_fields hr ho, rfl⟩)) e⟩)
    · exact .inr (.inr ⟨d, rfl, idle _ _ (.inr (.inr ⟨word_of_fields hr ho, rfl⟩)) e⟩)
  all_goals first | exact .inl ⟨_, _, rfl⟩ | exact .inr (.inl ⟨_, rfl⟩)

end Sys2Proof.Machine
end

