-- ==== Sys2Proof/Tests/Slice0.lean ====
section
/-! SUPPORT. Tests/Slice0.lean: small tests by `decide`, and a named witness for every statement with hypotheses. Expected
values are written from spec/: the encodings of 30_encoding.md R50 and R52, the vectors of 95_test_vectors.md. -/

namespace Sys2Proof.Tests

open Sys2Proof Sys2Proof.Machine

/-! ### Helpers -/

/-- What a host can read off an outcome: the STATUS word and the reply. -/
def seen : StepOutcome → Option (Word × Option Reply)
  | .next t => some (t.status.word, t.reply)
  | .fault _ => none
  | .refused _ => none

/-- What a tick left in the pipeline: r, K[0][0], WS[0][1], WS[1][0] and the STATUS word. -/
def pipeline : StepOutcome → Option (BitVec 4 × Byte × Byte × Byte × Word)
  | .next t => some (t.r, t.k[0][0], t.ws[0][1], t.ws[1][0], t.status.word)
  | .fault _ => none
  | .refused _ => none

/-- The start state of V6.10: COMPRESS accepted just after reset. -/
def busyState : State := runCompress State.reset

/-- The start state of V6.26: BUSY = 1 and the three error flags set. -/
def allFlags : State :=
  { busyState with status := { busy := true, done := false, errCmd := true, errBusy := true, errBus := true } }

/-- The state of V6.8: INIT just after reset, so DONE = 1. -/
def doneState : State := runInit State.reset

/-- An in-flight COMPRESS of H = 0 and MSG = 0 after `n` ticks (41_compression.md R74). -/
def inFlightState (n : Nat) : State :=
  { State.reset with
    status := { busy := true, done := false, errCmd := false, errBusy := false, errBus := false }
    k := roundKey zeroGrid n
    ws := cipherState zeroGrid (blockToGrid zeroBlock) n
    ml := blockToGrid zeroBlock
    r := BitVec.ofNat 4 n }

/-- A read at an offset, as the one planned input, run by `step`. -/
def readAt (off : BitVec 8) (s : State) : StepOutcome := step (s.withInputs [.packet (busx .read off)])

/-- A write at an offset, as the one planned input, run by `step`. -/
def writeAt (off : BitVec 8) (d : Word) (s : State) : StepOutcome :=
  step (s.withInputs [.packet (busx (.write d) off)])

/-- A matrix with one byte in it. -/
def unitGrid (i j : Fin 8) (x : Byte) : Grid := gridOf fun i' j' => if i' = i ∧ j' = j then x else 0#8

/-- The counting block 00 01 … 3f of V3.5. -/
def countingBlock : Block := Vector.ofFn fun k => BitVec.ofNat 8 k.val

/-! ### WellFormed: the one check -/

theorem test_wf_refuses_zero_rsvd : (Instr.illegalRsvd 0#28 5#4).wf = false := by decide
theorem test_wf_accepts_rsvd : (Instr.illegalRsvd 1#28 5#4).wf = true := by decide

/-! ### Decoding, words written bit by bit from R50 (RSVD, then OP) and R52 (W, then OFF[7:2], then OFF[1:0]) -/

theorem test_decode_commands :
    decode (.cmdw 0b00000000000000000000000000000000#32) = .nop ∧
    decode (.cmdw 0b00000000000000000000000000000001#32) = .init ∧
    decode (.cmdw 0b00000000000000000000000000000010#32) = .compress ∧
    decode (.cmdw 0b00000000000000000000000000000011#32) = .loadH := by decide

theorem test_decode_illegal_commands :
    decode (.cmdw 0b00000000000000000000000000000110#32) = .illegalOp47 0b10#2 ∧
    decode (.cmdw 0b00000000000000000000000000001011#32) = .illegalOp8F 0b011#3 ∧
    decode (.cmdw 0b10000000000000000000000000000010#32) = .illegalRsvd 0x8000000#28 0b0010#4 ∧
    decode (.cmdw 0b00000000000000000000000000010000#32) = .illegalRsvd 1#28 0#4 := by decide

theorem test_decode_misaligned :
    decode (.busx 0b0_100000_01#9 0#32) = .misaligned01 .read 0b100000#6 ∧
    decode (.busx 0b1_010000_10#9 7#32) = .misaligned10 (.write 7#32) 0b010000#6 ∧
    decode (.busx 0b0_111111_11#9 0#32) = .misaligned11 .read 0b111111#6 := by decide

theorem test_decode_block_registers :
    decode (.busx 0b0_00_1101_00#9 0#32) = .rdMsg 0b1101#4 ∧
    decode (.busx 0b1_00_0010_00#9 0x80636261#32) = .wrMsg 0b0010#4 0x80636261#32 ∧
    decode (.busx 0b0_01_0001_00#9 0#32) = .rdHash 0b0001#4 ∧
    decode (.busx 0b1_01_1111_00#9 1#32) = .wrHash 0b1111#4 1#32 := by decide

theorem test_decode_single_registers :
    decode (.busx 0b0_100000_00#9 0#32) = .rdCmd ∧
    decode (.busx 0b1_100000_00#9 2#32) = .wrCmd 2#32 ∧
    decode (.busx 0b0_100001_00#9 0#32) = .rdStatus ∧
    decode (.busx 0b1_100001_00#9 0x702#32) = .wrStatus 0x702#32 ∧
    decode (.busx 0b0_100010_00#9 0#32) = .rdInfo ∧
    decode (.busx 0b1_100010_00#9 3#32) = .wrInfo 3#32 := by decide

theorem test_decode_unmapped :
    decode (.busx 0b0_100011_00#9 0#32) = .unmapped8C .read ∧
    decode (.busx 0b1_1001_01_00#9 9#32) = .unmapped90 (.write 9#32) 0b01#2 ∧
    decode (.busx 0b0_101_110_00#9 0#32) = .unmappedA0 .read 0b110#3 ∧
    decode (.busx 0b0_11_1010_00#9 0#32) = .unmappedC0 .read 0b1010#4 := by decide

/-- The table's own number of bits for a row (32 and 9), whole bytes (16), and a transaction with its data (48). -/
theorem test_table_words :
    decodeTableWord 32 0x00000002 = some .compress ∧
    decodeTableWord 9 0x1C0 = some (.unmappedC0 (.write 0#32) 0#4) ∧
    decodeTableWord 16 0x084 = some .rdStatus ∧
    decodeTableWord 48 (0x00000003 * 65536 + 0x180) = some (.wrCmd 3#32) := by decide

/-- No transaction has a bit above W, and no command has another length (R48, R52). -/
theorem test_table_words_refused :
    decodeTableWord 16 0x200 = none ∧ decodeTableWord 24 0 = none ∧ decodeTableWord 9 0x200 = none ∧
    Packet.ofBits 16 0x200 = .error .bitsAboveW ∧ Packet.ofBits 24 0 = .error .noSuchFormat ∧
    Packet.ofBits 9 0x200 = .error .bitsAboveWord := by decide

theorem test_placed_word_runs_first :
    seen (step (State.reset.withFetchWord 32 0x00000001)) = some (0x00000002#32, some ⟨.ok, none, none⟩) ∧
    seen (step (State.reset.withFetchWord 16 0x088)) = some (0#32, some ⟨.ok, some 0x000A4040#32, none⟩) := by decide

/-! ### Commands (V6.8 to V6.23) -/

/-- V6.9. -/
theorem test_nop_keeps_done : seen (exec .nop doneState) = some (2#32, some ⟨.ok, none, none⟩) := by decide
/-- V6.8. -/
theorem test_init : seen (exec .init State.reset) = some (2#32, some ⟨.ok, none, none⟩) := by decide
/-- V6.20. -/
theorem test_init_busy : seen (exec .init busyState) = some (0x201#32, some ⟨.ok, none, some .busyCmd⟩) := by decide
/-- V6.10. -/
theorem test_compress : seen (exec .compress State.reset) = some (1#32, some ⟨.ok, none, none⟩) := by decide
/-- V6.19. -/
theorem test_compress_busy :
    seen (exec .compress busyState) = some (0x201#32, some ⟨.ok, none, some .busyCmd⟩) := by decide
/-- V6.13: LOAD_H of 00 01 … 3f, then HASH_1. -/
theorem test_loadH :
    seen (readAt 0x44#8 (runLoadH { State.reset with msg := countingBlock })) =
      some (2#32, some ⟨.ok, some 0x07060504#32, none⟩) := by decide
/-- V6.15. -/
theorem test_illegal_op : seen (writeAt 0x80#8 4#32 State.reset) =
    some (0x100#32, some ⟨.ok, none, some .illegalCmd⟩) := by decide
/-- V6.23: illegal beats busy. -/
theorem test_illegal_beats_busy : seen (writeAt 0x80#8 5#32 busyState) =
    some (0x101#32, some ⟨.ok, none, some .illegalCmd⟩) := by decide
/-- V6.16: not a NOP. -/
theorem test_illegal_rsvd : seen (writeAt 0x80#8 0x10#32 State.reset) =
    some (0x100#32, some ⟨.ok, none, some .illegalCmd⟩) := by decide
/-- V6.22. -/
theorem test_cmd_nop_busy : seen (writeAt 0x80#8 0#32 busyState) = some (1#32, some ⟨.ok, none, none⟩) := by decide

/-! ### Registers (V6.2 to V6.38) -/

/-- V6.2: the write and the read of MSG_0. -/
theorem test_msg_write_read :
    seen (readAt 0x00#8 { State.reset with msg := setBlockWord zeroBlock 0#4 0x80636261#32 }) =
      some (0#32, some ⟨.ok, some 0x80636261#32, none⟩) := by decide
/-- V6.2: MSG[0..3] = 61 62 63 80. -/
theorem test_msg_lanes :
    (setBlockWord zeroBlock 0#4 0x80636261#32)[0] = 0x61#8 ∧ (setBlockWord zeroBlock 0#4 0x80636261#32)[1] = 0x62#8 ∧
    (setBlockWord zeroBlock 0#4 0x80636261#32)[2] = 0x63#8 ∧ (setBlockWord zeroBlock 0#4 0x80636261#32)[3] = 0x80#8 := by
  decide
/-- V6.5. -/
theorem test_hash_write : seen (writeAt 0x40#8 0#32 State.reset) =
    some (0x400#32, some ⟨.busErr, none, some .readOnly⟩) := by decide
/-- V6.7. -/
theorem test_cmd_read : seen (readAt 0x80#8 busyState) = some (1#32, some ⟨.ok, some 0#32, none⟩) := by decide
/-- V6.26. -/
theorem test_status_read : seen (readAt 0x84#8 allFlags) = some (0x701#32, some ⟨.ok, some 0x701#32, none⟩) := by decide
/-- V6.27. -/
theorem test_status_write_all : seen (writeAt 0x84#8 0xFFFFFFFF#32 allFlags) =
    some (1#32, some ⟨.ok, none, none⟩) := by decide
/-- V6.28. -/
theorem test_status_write_one : seen (writeAt 0x84#8 0x200#32 allFlags) =
    some (0x501#32, some ⟨.ok, none, none⟩) := by decide
/-- V6.14. -/
theorem test_info_write : seen (writeAt 0x88#8 0x000A4040#32 State.reset) =
    some (0x400#32, some ⟨.busErr, none, some .readOnly⟩) := by decide
/-- V6.31. -/
theorem test_misaligned_read : seen (readAt 0x01#8 State.reset) =
    some (0x400#32, some ⟨.busErr, some 0#32, some .misaligned⟩) := by decide
/-- V6.38: an error while BUSY = 1. -/
theorem test_misaligned_busy : seen (readAt 0x82#8 busyState) =
    some (0x401#32, some ⟨.busErr, some 0#32, some .misaligned⟩) := by decide
/-- V6.33: misaligned before read_only. -/
theorem test_misaligned_first : seen (writeAt 0x42#8 0#32 State.reset) =
    some (0x400#32, some ⟨.busErr, none, some .misaligned⟩) := by decide
/-- V6.36: misaligned before unmapped. -/
theorem test_misaligned_top : seen (readAt 0xFF#8 State.reset) =
    some (0x400#32, some ⟨.busErr, some 0#32, some .misaligned⟩) := by decide
/-- V6.34. -/
theorem test_unmapped_read : seen (readAt 0x8C#8 State.reset) =
    some (0x400#32, some ⟨.busErr, some 0#32, some .unmapped⟩) := by decide
/-- V6.35. -/
theorem test_unmapped_write : seen (writeAt 0xFC#8 1#32 State.reset) =
    some (0x400#32, some ⟨.busErr, none, some .unmapped⟩) := by decide
/-- V6.37, the reset: no bus response, STATUS zero. -/
theorem test_reset : seen (step (allFlags.withInputs [.reset])) = some (0#32, none) := by decide

/-! ### The field and the round function (V2, V3, V7) -/

/-- V2. -/
theorem test_gmul :
    gmul 0x80#8 0x02#8 = 0x1D#8 ∧ gmul 0xFF#8 0x09#8 = 0x54#8 ∧ gmul 0x8E#8 0x02#8 = 0x01#8 ∧
    gmul 0x57#8 0x13#8 = 0xE0#8 ∧ gmul 0x53#8 0xCA#8 = 0x8F#8 := by decide
/-- V3.1. -/
theorem test_sbox :
    sbox 0x00#8 = 0x18#8 ∧ sbox 0x12#8 = 0x9B#8 ∧ sbox 0x80#8 = 0x97#8 ∧ sbox 0x81#8 = 0x00#8 ∧
    sbox 0xFF#8 = 0x86#8 := by decide
/-- V3.2. -/
theorem test_mini_boxes :
    sboxFromMiniBoxes 0x00#8 = 0x18#8 ∧ sboxFromMiniBoxes 0x80#8 = 0x97#8 ∧ sboxFromMiniBoxes 0xFF#8 = 0x86#8 := by
  decide
/-- V3.3. -/
theorem test_round_constants :
    (roundConst 1)[0].toList = [0x18, 0x23, 0xc6, 0xe8, 0x87, 0xb8, 0x01, 0x4f] ∧
    (roundConst 10)[0].toList = [0xca, 0x2d, 0xbf, 0x07, 0xad, 0x5a, 0x83, 0x33] ∧
    (roundConst 10)[7] = zeroGrid[0] := by decide
/-- V3.5, V3.6: row 1 of γ and of π on the counting matrix. -/
theorem test_gamma_pi :
    (gamma (blockToGrid countingBlock))[1].toList = [0x36, 0xa6, 0xd2, 0xf5, 0x79, 0x6f, 0x91, 0x52] ∧
    (cyclicPi (blockToGrid countingBlock))[1].toList = [0x08, 0x01, 0x3a, 0x33, 0x2c, 0x25, 0x1e, 0x17] := by decide
/-- V3.7: θ of 0x80 at row 3, column 5. -/
theorem test_theta :
    (theta (unitGrid 3 5 0x80#8))[3].toList = [0x80, 0x74, 0xba, 0x1d, 0xf4, 0x80, 0x80, 0x3a] ∧
    (theta (unitGrid 3 5 0x80#8))[2] = zeroGrid[0] := by decide
/-- V3.9: K^1 for H = 0, rows 0 and 7. -/
theorem test_first_round_key :
    (roundKey zeroGrid 1)[0].toList = [0x30, 0x0b, 0xee, 0xc0, 0xaf, 0x90, 0x29, 0x67] ∧
    (roundKey zeroGrid 1)[7].toList = List.replicate 8 0x28#8 := by decide
/-- V4.3's corner case: after one tick with H = MSG = 0 the round is 1, K is K^1 and WS is c^1. -/
theorem test_first_tick :
    pipeline (stepInput .tick busyState) = some (1#4, 0x30#8, 0x23#8, 0x00#8, 0x00000001#32) := by decide
/-- V7.3, V7.6: how many blocks the padding makes, and the last length byte. -/
theorem test_padding :
    (padTail [0x61, 0x62, 0x63] 24#256).length = 64 ∧ (padTail [0x61, 0x62, 0x63] 24#256)[63]? = some 0x18#8 ∧
    (padTail [0x61, 0x62, 0x63] 24#256)[3]? = some 0x80#8 := by decide
/-- V7.4, V7.5, V7.6: zeros after the marker: 31 + 1 + 0 = 32; 32 + 1 + 63 = 96; 55 + 1 + 40 = 96. -/
theorem test_padding_zeros : padZeros 32 = 0 ∧ padZeros 33 = 63 ∧ padZeros 56 = 40 := by decide
/-- R100's digits: the high nibble first. -/
theorem test_hex : hexByte 0x1f#8 = ['1', 'f'] := by decide
/-- V1.7: the sizes; and assigning one is an error of the API. -/
theorem test_sizes : (digestSize State.reset).map Prod.fst = some 64 ∧ (blockSize State.reset).map Prod.fst = some 64 := by
  decide
theorem test_size_assignment : assignSize 32 = .error .readOnlyAttribute := rfl

/-! ### Witnesses: the hypotheses of each statement can be met -/

theorem witness_DecodeOfEncodeIsIdentity :
    (Instr.illegalRsvd 1#28 0#4).wf = true ∧ (Instr.illegalRsvd 0xFFFFFFF#28 15#4).wf = true ∧
    Instr.nop.wf = true ∧ (Instr.misaligned11 .read 63#6).wf = true := by decide

theorem witness_EveryPacketSelectsExactlyOneRow :
    (∃ row, opcodeTable[6]? = some row ∧ row.selects (.cmdw 0x10#32) = true) ∧
    (∃ row, opcodeTable[0]? = some row ∧ row.selects (.cmdw 0x10#32) = false) ∧
    (∃ row, opcodeTable[23]? = some row ∧ row.selects (.busx 0x1FC#9 0#32) = true) :=
  ⟨⟨_, rfl, by decide⟩, ⟨_, rfl, by decide⟩, ⟨_, rfl, by decide⟩⟩

theorem witness_StepRunsPlannedInstruction :
    (State.reset.withInputs [.packet (.cmdw 2#32)]).inputs = .packet (.cmdw 2#32) :: [] ∧
    decodeTableWord 32 0xFFFFFFFF = some (.illegalRsvd 0xFFFFFFF#28 15#4) ∧ decodeTableWord 16 0 = some (.rdMsg 0#4) := by
  decide

theorem witness_RunInputsIsStepping :
    runInputs [.packet (.cmdw 0#32), .tick] State.reset = .next (runNop State.reset) := rfl

theorem witness_commands_idle : State.reset.status.busy = false := by decide
theorem witness_commands_busy : busyState.status.busy = true := by decide

theorem witness_InitZeroesChainingValue :
    ({ State.reset with h := unitGrid 7 7 0xFF#8 } : State).status.busy = false := by decide
theorem witness_CompressAcceptanceLoadsPipeline :
    State.reset.status.busy = false ∧ (63 : Nat) = 8 * 7 + 7 ∧ (0 : Nat) = 8 * 0 + 0 := by decide
theorem witness_LoadHCopiesMessage :
    ({ State.reset with msg := countingBlock } : State).status.busy = false ∧ (63 : Nat) = 8 * 7 + 7 := by decide
theorem witness_ValidCommandWhileBusyIsDropped :
    busyState.status.busy = true ∧
    ((3#32 = 1#32 ∧ Instr.loadH = .init) ∨ (3#32 = 2#32 ∧ Instr.loadH = .compress) ∨
      (3#32 = 3#32 ∧ Instr.loadH = .loadH)) := by decide
theorem witness_IllegalCommandSetsErrCmdOnly :
    ∃ (v : Word) (low2 : BitVec 2) (low3 : BitVec 3) (rsvd : BitVec 28) (op : BitVec 4) (i : Instr),
      i = .illegalOp47 low2 ∨ i = .illegalOp8F low3 ∨ i = .illegalRsvd rsvd op ∨
        (illegalWord v ∧ i = decode (.cmdw v)) :=
  ⟨0x10#32, 0, 0, 1#28, 0#4, _, .inr (.inr (.inr ⟨.inl (by decide), rfl⟩))⟩

/-- The words where the clauses meet: 0 and 3 are not illegal, 4, 0xF and 0x10 are. -/
theorem witness_CmdWriteChecksInOrder :
    illegalWord 4#32 ∧ illegalWord 0xF#32 ∧ illegalWord 0x10#32 ∧ illegalWord 0x80000002#32 ∧ ¬ illegalWord 0#32 ∧
    ¬ illegalWord 1#32 ∧ ¬ illegalWord 2#32 ∧ ¬ illegalWord 3#32 ∧ busyState.status.busy = true ∧
    State.reset.status.busy = false := by
  unfold illegalWord; decide

theorem witness_ReadMsgReturnsLittleEndianLanes :
    (63 : Nat) = 4 * (15#4).toNat + 3 ∧ (0 : Nat) = 4 * (0#4).toNat + 0 := by decide
theorem witness_WrittenMsgWordReadsBack :
    ∃ t : State, exec (.wrMsg 15#4 0x18000000#32) State.reset = .next t := ⟨_, rfl⟩
theorem witness_ReadHashReturnsChainingValue :
    8 * 7 + 7 = 4 * (15#4).toNat + 3 ∧ 8 * 0 + 4 = 4 * (1#4).toNat + 0 := by decide
theorem witness_ReadOnlyWritesRaiseBusError :
    ((0x7C#8 = BitVec.ofNat 8 (0x40 + 4 * (15#4).toNat) ∧ Instr.wrHash 15#4 0#32 = .wrHash 15#4 0#32) ∨
      (0x7C#8 = 0x88#8 ∧ Instr.wrHash 15#4 0#32 = .wrInfo 0#32)) ∧
    ((0x88#8 = BitVec.ofNat 8 (0x40 + 4 * (0#4).toNat) ∧ Instr.wrInfo 9#32 = .wrHash 0#4 9#32) ∨
      (0x88#8 = 0x88#8 ∧ Instr.wrInfo 9#32 = .wrInfo 9#32)) := by decide
theorem witness_StatusReadShowsFlags : (2 : Nat) ≠ 0 ∧ (2 : Nat) ≠ 1 ∧ (2 : Nat) ≠ 8 ∧ (2 : Nat) ≠ 9 ∧ (2 : Nat) ≠ 10 := by
  decide

/-- The offsets where the checks meet: 0x41, 0x8D and 0xFF are misaligned; 0x8C and 0xFC unmapped; writes at 0x40, 0x7C
and 0x88 read-only; 0x3C, 0x80 and 0x84 pass for writes, and reads pass at 0x40, 0x7C and 0x88. -/
theorem witness_AccessFollowsCheckOrder :
    ((0x41#8).toNat % 4 ≠ 0 ∧ (0x8D#8).toNat % 4 ≠ 0 ∧ (0xFF#8).toNat % 4 ≠ 0) ∧
    ((0x8C#8).toNat % 4 = 0 ∧ 0x8C ≤ (0x8C#8).toNat) ∧ ((0xFC#8).toNat % 4 = 0 ∧ 0x8C ≤ (0xFC#8).toNat) ∧
    (Access.write 0#32 ≠ .read ∧ (0x40#8).toNat % 4 = 0 ∧ (0x40#8).toNat < 0x8C ∧ 0x40 ≤ (0x40#8).toNat) ∧
    ((0x7C#8).toNat % 4 = 0 ∧ (0x7C#8).toNat ≤ 0x7C) ∧ ((0x88#8).toNat % 4 = 0 ∧ (0x88#8).toNat < 0x8C) := by decide
theorem witness_AccessFollowsCheckOrder_passes :
    ¬ refusedOffset (.write 0#32) 0x3C#8 ∧ ¬ refusedOffset (.write 0#32) 0x80#8 ∧
    ¬ refusedOffset (.write 0#32) 0x84#8 ∧ ¬ refusedOffset .read 0x40#8 ∧ ¬ refusedOffset .read 0x7C#8 ∧
    ¬ refusedOffset .read 0x88#8 ∧ ¬ refusedOffset .read 0x00#8 := by simp [refusedOffset]
theorem witness_ReadsHaveNoSideEffect :
    ((0x00#8).toNat % 4 = 0 ∧ (0x00#8).toNat < 0x8C) ∧ ((0x88#8).toNat % 4 = 0 ∧ (0x88#8).toNat < 0x8C) := by decide
theorem witness_OneErrorFlagPerAccess :
    (dropBusy busyState).reply.bind Reply.cause = some .busyCmd ∧
    (dropIllegal busyState).reply.bind Reply.cause = some .illegalCmd ∧
    (raiseBusError .unmapped .read busyState).reply.bind Reply.cause = some .unmapped ∧
    (runNop busyState).reply.bind Reply.cause = none := by decide

/-- An input that changes H, for the rules about who writes what: LOAD_H by a write of CMD. -/
theorem witness_ChainingValueWriters :
    stepInput (.packet (busx (.write 3#32) 0x80#8)) { State.reset with msg := countingBlock } =
        .next (runLoadH { State.reset with msg := countingBlock }) ∧
    (Input.packet (busx (.write 3#32) 0x80#8)).commandWord = some 3#32 := ⟨rfl, by decide⟩
theorem witness_MessageWriters :
    stepInput (.packet (busx (.write 9#32) 0x3C#8)) State.reset =
        .next (answerWrite (State.reset.withMsg (setBlockWord zeroBlock 15#4 9#32))) ∧
    (Input.packet (busx (.write 9#32) 0x3C#8)).instr = some (.wrMsg 15#4 9#32) := ⟨rfl, by decide⟩
theorem witness_HiddenStateWriters :
    stepInput (.packet (.cmdw 2#32)) State.reset = .next busyState ∧
    (Input.packet (.cmdw 2#32)).commandWord = some 2#32 := ⟨rfl, by decide⟩
theorem witness_BusyAndDoneWriters :
    stepInput (.packet (.cmdw 2#32)) doneState = .next (runCompress doneState) ∧ doneState.status.busy = false ∧
    (runCompress doneState).status.busy = true ∧ doneState.status.done = true ∧
    (runCompress doneState).status.done = false ∧ (runInit State.reset).status.done = true ∧
    (Input.packet (.cmdw 1#32)).commandWord = some 1#32 ∧
    stepInput (.packet (busx (.write 2#32) 0x84#8)) doneState =
      .next (answerWrite (doneState.withStatus (doneState.status.clearBy 2#32))) ∧
    (Input.packet (busx (.write 2#32) 0x84#8)).statusWrite = some 2#32 ∧
    (resetBlock busyState).status.busy = false :=
  ⟨rfl, by decide, by decide, by decide, by decide, by decide, by decide, rfl, by decide, by decide⟩
theorem witness_ErrorFlagWriters :
    stepInput (.packet (.cmdw 4#32)) busyState = .next (dropIllegal busyState) ∧
    busyState.status.errCmd = false ∧ (dropIllegal busyState).status.errCmd = true ∧
    stepInput (.packet (.cmdw 1#32)) busyState = .next (dropBusy busyState) ∧
    busyState.status.errBusy = false ∧ (dropBusy busyState).status.errBusy = true ∧
    stepInput (.packet (busx .read 0x8C#8)) busyState = .next (raiseBusError .unmapped .read busyState) ∧
    busyState.status.errBus = false ∧ (raiseBusError .unmapped .read busyState).status.errBus = true ∧
    allFlags.status.errCmd = true ∧ (allFlags.status.clearBy 0x700#32).errCmd = false ∧
    (allFlags.status.clearBy 0x700#32).errBusy = false ∧ (allFlags.status.clearBy 0x700#32).errBus = false :=
  ⟨rfl, by decide, by decide, rfl, by decide, by decide, rfl, by decide, by decide, by decide, by decide, by decide,
    by decide⟩

theorem witness_TickRunsOneRound :
    (busyState.status.busy = true ∧ busyState.r.toNat < 9) ∧
    ((inFlightState 8).status.busy = true ∧ (inFlightState 8).r.toNat < 9) := by decide
theorem witness_FinalTickWritesChainingValue :
    (inFlightState 9).status.busy = true ∧ (inFlightState 9).r = 9#4 := by decide
theorem witness_IdleEngineDoesNothing : State.reset.status.busy = false ∧ State.reset.inputs = [] := by decide

theorem witness_inFlight_first : InFlight zeroGrid zeroBlock 0 (inFlightState 0) :=
  ⟨rfl, by decide, by decide, rfl, rfl, rfl, rfl⟩
theorem witness_inFlight_last : InFlight zeroGrid zeroBlock 9 (inFlightState 9) :=
  ⟨rfl, by decide, by decide, rfl, rfl, rfl, rfl⟩
theorem witness_engineInv_busy : EngineInv (inFlightState 9) ∧ (inFlightState 9).status.busy = true :=
  ⟨⟨by decide, fun _ => ⟨by decide, rfl, rfl, rfl⟩⟩, rfl⟩
theorem witness_engineInv_accepted : EngineInv (inFlightState 0) ∧ (inFlightState 0).status.busy = true :=
  ⟨⟨by decide, fun _ => ⟨by decide, rfl, rfl, rfl⟩⟩, rfl⟩

theorem witness_EveryStepKeepsEngineInvariant :
    EngineInv (inFlightState 9) ∧ ∃ t : State, step (inFlightState 9) = .next t := ⟨witness_engineInv_busy.1, _, rfl⟩
theorem witness_NoStepFaultsUnderInvariant : EngineInv (inFlightState 9) ∧ EngineInv (inFlightState 0) :=
  ⟨witness_engineInv_busy.1, witness_engineInv_accepted.1⟩
theorem witness_PipelineInvariantUnderInterleaving :
    (State.reset.status.busy = false ∧ exec .compress State.reset = .next busyState) ∧
    (InFlight zeroGrid zeroBlock 9 (inFlightState 9) ∧ Input.tick ≠ .reset ∧
      ∃ t : State, stepInput .tick (inFlightState 9) = .next t) ∧
    (InFlight zeroGrid zeroBlock 0 (inFlightState 0) ∧ ∃ t : State, stepInput .tick (inFlightState 0) = .next t) ∧
    (Input.packet (.cmdw 2#32) ≠ .tick ∧ Input.packet (.cmdw 2#32) ≠ .reset ∧
      ∃ t : State, stepInput (.packet (.cmdw 2#32)) (inFlightState 9) = .next t) :=
  ⟨⟨by decide, rfl⟩, ⟨witness_inFlight_last, by decide, _, rfl⟩, ⟨witness_inFlight_first, _, rfl⟩, by decide, by decide,
    _, rfl⟩
theorem witness_CompressTakesExactlyTenTicks : State.reset.status.busy = false ∧ 0 ≤ 10 ∧ 9 ≤ 10 ∧ 10 ≤ 10 := by decide
theorem witness_CompressResultUnderEveryInterleaving :
    let is : List Input := List.replicate 4 .tick ++ [.packet (.cmdw 1#32), .packet (busx (.write 9#32) 0x00#8)] ++
      List.replicate 5 .tick
    State.reset.status.busy = false ∧ Input.reset ∉ is ∧ is.count .tick = 9 ∧
      ∀ i ∈ is, i = .tick ∨ ∃ p : Packet, i = .packet p := by
  refine ⟨by decide, by decide, by decide, ?_⟩
  intro i hi
  simp only [List.replicate, List.cons_append, List.nil_append, List.mem_cons, List.not_mem_nil, or_false] at hi
  rcases hi with rfl | rfl | rfl | rfl | rfl | rfl | rfl | rfl | rfl | rfl | rfl <;>
    first | exact .inl rfl | exact .inr ⟨_, rfl⟩
theorem witness_BusyHazardHasBothOutcomes :
    State.reset.status.busy = false ∧ 9 ≤ 10 ∧ 9 < 10 ∧ 10 ≤ 10 ∧ (3#32 = 1#32 ∨ 3#32 = 2#32 ∨ 3#32 = 3#32) := by decide
theorem witness_BusyBlockFinishesByItself :
    (EngineInv (inFlightState 0) ∧ (inFlightState 0).status.busy = true ∧ (inFlightState 0).inputs = []) ∧
    (EngineInv (inFlightState 9) ∧ (inFlightState 9).status.busy = true ∧ (inFlightState 9).inputs = []) :=
  ⟨⟨witness_engineInv_accepted.1, rfl, rfl⟩, witness_engineInv_busy.1, rfl, rfl⟩

/-- Two idle states with different hidden state, and two equal busy ones. -/
theorem witness_HiddenStateStaysInvisible :
    (HostEqual State.reset { State.reset with k := unitGrid 0 0 1#8, ws := unitGrid 1 1 1#8, r := 10#4 } ∧
      State.reset ≠ { State.reset with k := unitGrid 0 0 1#8, ws := unitGrid 1 1 1#8, r := 10#4 } ∧
      ∃ t : State, stepInput (.packet (.cmdw 2#32)) State.reset = .next t) ∧
    (HostEqual busyState busyState ∧ ∃ t : State, stepInput .tick busyState = .next t) :=
  ⟨⟨⟨rfl, rfl, rfl, rfl, rfl, fun h => absurd h (by decide)⟩, by decide, _, rfl⟩,
    ⟨rfl, rfl, rfl, rfl, rfl, fun _ => ⟨rfl, rfl, rfl, rfl⟩⟩, _, rfl⟩

theorem witness_ResetInputResetsEverything :
    (busyState.withInputs [.reset, .tick]).inputs = .reset :: [.tick] := by decide

theorem witness_RoundLayersEntrywise :
    ((1 + 7) % 8 = 0 ∧ (0 + 0) % 8 = 0 ∧ (0 + 7) % 8 = 7) ∧ (1 ≤ 1 ∧ 1 ≤ 10) ∧ (1 ≤ 10 ∧ 10 ≤ 10) := by decide
theorem witness_RhoIsInjective : rho zeroGrid zeroGrid = rho zeroGrid zeroGrid := rfl

theorem witness_HostAddressesReachOffsets_base : ∃ address, Config.base + 256 ≤ address := ⟨_, Nat.le_refl _⟩
theorem witness_HostAddressesReachOffsets :
    (3 ≠ 4 ∧ 8 ≠ 4 ∧ 0 ≠ 4) ∧ ((255 : Nat) < 256 ∨ 256 + 256 ≤ (255 : Nat)) ∧
    ((512 : Nat) < 256 ∨ 256 + 256 ≤ (512 : Nat)) ∧ ¬ ((511 : Nat) < 256 ∨ 256 + 256 ≤ (511 : Nat)) := by decide

/-- Two instances, the second busy. -/
def twoInstances : List Placed := [⟨3, State.reset⟩, ⟨7, busyState⟩]

theorem witness_InstancesAreIndependent :
    (∃ sys' : List Placed, systemStep (.tick 1) twoInstances = .next sys') ∧
    (SystemEvent.tick 1).target twoInstances = some 1 ∧ (SystemEvent.tick 1).target twoInstances ≠ some 0 ∧
    twoInstances[1]? = some ⟨7, busyState⟩ :=
  ⟨⟨_, rfl⟩, by decide, by decide, rfl⟩
theorem witness_AccessReachesItsInstance :
    (twoInstances.map Placed.page).Nodup ∧ twoInstances[1]? = some ⟨7, busyState⟩ ∧
    (SystemEvent.hostAccess .read (256 * 7 + 0xFF) 4).target twoInstances = some 1 ∧
    (SystemEvent.hostAccess .read (256 * 3) 4).target twoInstances = some 0 :=
  ⟨by decide, rfl, by decide, by decide⟩

theorem witness_WaitEndsWithResult :
    (EngineInv (inFlightState 0) ∧ (inFlightState 0).status.busy = true ∧
      10 - (inFlightState 0).r.toNat ≤ [3, 0, 7].sum) ∧
    (EngineInv (inFlightState 9) ∧ (inFlightState 9).status.busy = true ∧ 10 - (inFlightState 9).r.toNat ≤ [1].sum) :=
  ⟨⟨witness_engineInv_accepted.1, rfl, by decide⟩, witness_engineInv_busy.1, rfl, by decide⟩
theorem witness_ChainedCompressIteratesF : State.reset.status.busy = false ∧ 10 ≤ [4, 6].sum := by decide
theorem witness_LoadedChainingValueReadsBack : doneState.status.busy = false := by decide
theorem witness_PaddingShape :
    (List.replicate 31 0x41#8).length ≤ 31 ∧ ¬ (List.replicate 32 0x41#8).length ≤ 31 ∧
    (List.replicate 63 0x41#8).length ≤ 63 ∧ ([] : List Byte).length ≤ 63 ∧
    (31 < 64 - 32 ∧ ¬ (31 < 31)) ∧ (32 < 33 ∧ 33 < 128 - 32) ∧ (63 < 64 ∧ 64 < 128 - 32) := by decide
/-- An engine with three bytes buffered, resident in the block. -/
def someEngine : Engine := { buf := [0x61, 0x62, 0x63], count := 0#256, home := .resident }

/-- An engine saved from a block with H = 0. -/
def savedEngine : Engine := { buf := [0x41], count := 512#256, home := .saved zeroBlock }

/-- `new` beside a resident engine: that one is saved, the new one is resident (R93, R95; log 28). -/
theorem test_new_saves_resident :
    (newEngine [savedEngine, someEngine] State.reset).map (fun p => p.1.map Engine.isResident) =
      some [false, false, true] := by decide
/-- R94: `make_resident` while BUSY = 1 is not done. -/
theorem test_make_resident_busy : makeResidentAt 0 [savedEngine] busyState = none := rfl

theorem witness_DigestIsWhirlpoolOfConcatenation : State.reset.status.busy = false ∧ 10 ≤ [0, 9, 1].sum := by decide
theorem witness_DigestIsIdempotent :
    someEngine.home = .resident ∧ doneState.status.busy = false ∧ 10 ≤ [10].sum := by decide
theorem witness_CopyIsIndependent :
    [savedEngine, someEngine][1]? = some someEngine ∧ someEngine.home = .resident ∧
    State.reset.status.busy = false ∧ 10 ≤ [10].sum := by decide
theorem witness_CopyIsIndependent_operation :
    OneResident [savedEngine, someEngine] ∧
    ∃ (es' : List Engine) (t : State),
      runHostOp [10] (.copy 1) [savedEngine, someEngine] State.reset = some (es', t) := by
  refine ⟨by unfold OneResident; decide, _, _, rfl⟩

end Sys2Proof.Tests
end

/-! ## Scope (00_scope.md R17): planned inputs and the steps that take them

No effect of the block reads or writes the planned inputs (log 1): replacing them before an effect or after it comes to
the same (`…_withInputs`). A run of planned inputs by `step` is then `runInputs`, for every outcome. -/

namespace Sys2Proof.Machine

/-- The outcome with the planned inputs of its next state replaced; a fault or a refusal has no next state. -/
def replan (is : List Input) : StepOutcome → StepOutcome
  | .next s => .next (s.withInputs is)
  | .fault f => .fault f
  | .refused e => .refused e

@[simp] theorem replan_next (is : List Input) (s : State) : replan is (.next s) = .next (s.withInputs is) := rfl
@[simp] theorem replan_fault (is : List Input) (f : Fault) : replan is (.fault f) = .fault f := rfl
@[simp] theorem replan_refused (is : List Input) (e : Refusal) : replan is (.refused e) = .refused e := rfl

@[simp] theorem State.withInputs_withInputs (s : State) (is js : List Input) :
    (s.withInputs is).withInputs js = s.withInputs js := rfl

@[simp] theorem State.withInputs_self (s : State) : s.withInputs s.inputs = s := rfl

/-- States with the same planned inputs that agree after a replacement are the same. -/
theorem State.eq_of_withInputs_eq {s t : State} {is : List Input} (hin : s.inputs = t.inputs)
    (h : s.withInputs is = t.withInputs is) : s = t := by
  calc s = (s.withInputs is).withInputs s.inputs := rfl
    _ = (t.withInputs is).withInputs t.inputs := by rw [h, hin]
    _ = t := rfl

/-! ### Effects neither read nor write the planned inputs -/

/-- The busy check reads STATUS only. -/
theorem whenIdle_withInputs {run : State → State} {s : State} {is : List Input}
    (hrun : run (s.withInputs is) = (run s).withInputs is) :
    whenIdle run (s.withInputs is) = (whenIdle run s).withInputs is := by
  cases hb : s.status.busy with
  | true => rw [whenIdle_of_busy hb, whenIdle_of_busy (s := s.withInputs is) hb]; rfl
  | false => rw [whenIdle_of_idle hb, whenIdle_of_idle (s := s.withInputs is) hb, hrun]

/-- Each check of `cmd_write` (42_commands.md R76) reads the word or STATUS only. -/
theorem cmdWrite_withInputs (v : Word) (s : State) (is : List Input) :
    cmdWrite v (s.withInputs is) = (cmdWrite v s).withInputs is := by
  simp only [cmdWrite, apply_ite (State.withInputs · is)]
  rfl

theorem exec_withInputs (i : Instr) (s : State) (is : List Input) :
    exec i (s.withInputs is) = replan is (exec i s) := by
  cases i
  case init => exact congrArg Host.Outcome.next (whenIdle_withInputs rfl)
  case compress => exact congrArg Host.Outcome.next (whenIdle_withInputs rfl)
  case loadH => exact congrArg Host.Outcome.next (whenIdle_withInputs rfl)
  case wrCmd d => exact congrArg Host.Outcome.next (cmdWrite_withInputs d s is)
  all_goals rfl

/-- A tick reads K, WS, ML, H and r, in each of its three cases (41_compression.md R72, R73; log 5). -/
theorem tick_withInputs (s : State) (is : List Input) : tick (s.withInputs is) = replan is (tick s) := by
  rcases Nat.lt_trichotomy s.r.toNat 9 with hr | hr | hr
  · rw [tick_of_lt hr, tick_of_lt (s := s.withInputs is) hr]; rfl
  · rw [tick_of_nine hr, tick_of_nine (s := s.withInputs is) hr]; rfl
  · rw [tick_of_ge hr, tick_of_ge (s := s.withInputs is) hr]; rfl

theorem engineTurn_withInputs (s : State) (is : List Input) :
    engineTurn (s.withInputs is) = replan is (engineTurn s) := by
  cases hb : s.status.busy with
  | true => rw [engineTurn_of_busy hb, engineTurn_of_busy (s := s.withInputs is) hb, tick_withInputs]
  | false => rw [engineTurn_of_idle hb, engineTurn_of_idle (s := s.withInputs is) hb, replan_next]

theorem runHostAccess_withInputs (base : Nat) (a : Access) (address bytes : Nat) (s : State) (is : List Input) :
    runHostAccess base a address bytes (s.withInputs is) = replan is (runHostAccess base a address bytes s) := by
  unfold runHostAccess
  cases windowOffset base address bytes with
  | ok off => exact exec_withInputs _ s is
  | error e => rfl

theorem stepInput_withInputs (i : Input) (s : State) (is : List Input) :
    stepInput i (s.withInputs is) = replan is (stepInput i s) := by
  cases i with
  | packet p => exact exec_withInputs (decode p) s is
  | hostAccess a address bytes => exact runHostAccess_withInputs Config.base a address bytes s is
  | tick => exact engineTurn_withInputs s is
  | reset => rfl

/-! ### Runs of inputs -/

/-- A run of inputs leaves the planned inputs alone. -/
theorem runInputs_inputs {is : List Input} {s t : State} (h : runInputs is s = .next t) : t.inputs = s.inputs := by
  induction is generalizing s with
  | nil => cases h; rfl
  | cons i is ih =>
    obtain ⟨u, hu, h⟩ := runInputs_cons_inv h
    exact (ih h).trans (stepInput_inputs hu)

/-- As many steps as the inputs in front of the plan are the run of these inputs, whether it answers a next state, faults
or is refused; what is planned after them stays. -/
theorem run_planned (is rest : List Input) (s : State) :
    Host.Core.run core is.length (s.withInputs (is ++ rest)) = replan rest (runInputs is s) := by
  induction is generalizing s with
  | nil => rfl
  | cons i is ih =>
    have hstep : core.step (s.withInputs (i :: is ++ rest)) = replan (is ++ rest) (stepInput i s) :=
      (step_of_cons (s := s.withInputs (i :: is ++ rest)) rfl).trans (stepInput_withInputs i s (is ++ rest))
    simp only [List.length_cons, Host.Core.run, hstep, runInputs]
    cases stepInput i s with
    | next t => exact ih t
    | fault f => rfl
    | refused e => rfl

/-- Settles O6: `run_planned` gives the steps, `runInputs_inputs` that the plan is untouched. -/
theorem runInputsIsStepping : Obligations.RunInputsIsStepping := by
  intro is rest s t
  have hrun : Host.Core.run core is.length { s with inputs := is ++ rest } = replan rest (runInputs is s) :=
    run_planned is rest s
  rw [hrun]
  constructor
  · intro h
    exact ⟨runInputs_inputs h, by rw [h]; rfl⟩
  · rintro ⟨hin, h⟩
    cases hr : runInputs is s with
    | next u =>
      rw [hr] at h
      have hut : u.withInputs rest = t.withInputs rest := Host.Outcome.next.inj h
      rw [State.eq_of_withInputs_eq ((runInputs_inputs hr).trans hin.symm) hut]
    | fault f => rw [hr] at h; cases h
    | refused e => rw [hr] at h; cases h

/-! ### The fetched word -/

/-- A table word that decodes is a packet of the decoded instruction (30_encoding.md R53). -/
theorem decodeTableWord_eq_some {nbits w : Nat} {i : Instr} (h : decodeTableWord nbits w = some i) :
    ∃ p, Packet.ofBits nbits w = .ok p ∧ decode p = i := by
  unfold decodeTableWord at h
  cases hp : Packet.ofBits nbits w with
  | ok p => rw [hp] at h; exact ⟨p, rfl, Option.some.inj h⟩
  | error e => rw [hp] at h; cases h

/-- The bits of a packet are planned first (log 10). -/
theorem withFetchWord_of_ok {nbits w : Nat} {p : Packet} (h : Packet.ofBits nbits w = .ok p) (s : State) :
    s.withFetchWord nbits w = s.withInputs (.packet p :: s.inputs) := by
  simp [State.withFetchWord, planWord, h]

/-- A step takes the first planned packet and runs its instruction. -/
theorem step_of_packet {s : State} {p : Packet} {rest : List Input} (h : s.inputs = .packet p :: rest) :
    step s = exec (decode p) (s.withInputs rest) := step_of_cons h

/-- Settles O5: the step takes the planned packet; a fetched word is planned in front of the inputs, which the step
leaves as they were. -/
theorem stepRunsPlannedInstruction : Obligations.StepRunsPlannedInstruction := by
  refine ⟨fun s p rest h => step_of_packet h, fun s nbits w i h => ?_⟩
  obtain ⟨p, hp, rfl⟩ := decodeTableWord_eq_some h
  rw [withFetchWord_of_ok hp, step_of_packet (State.withInputs_inputs s _), State.withInputs_withInputs,
    State.withInputs_self]

end Sys2Proof.Machine

/-! ## State (10_state.md R19 to R33): who writes what, and what the host can't see

One input has one of the effects listed by `InputEffect`, each with the word or the row that brought it; the statements
about writers read it off case by case. What the host can't tell apart is kept by each shared operation
(`hostEqual_…`), so by every input. -/

namespace Sys2Proof.Machine

/-! ### Which word brings which effect -/

/-- What the decoder gives is an encoding: ILLEGAL_RSVD comes with a nonzero field (30_encoding.md R51, R53). -/
theorem wf_decode (p : Packet) : (decode p).wf = true := by
  cases p with
  | cmdw v =>
    simp only [decode, decodeCmdw]
    split_ifs with hr
    · simpa [Instr.wf] using hr
    all_goals rfl
  | busx code d =>
    simp only [decode, decodeBusx]
    cases decodeAccess code d <;> simp only [apply_ite Instr.wf] <;> simp only [Instr.wf, ite_self]

/-- A transaction brings a word to CMD only as a write at CMD's offset (30_encoding.md R52). -/
theorem wordToCmd_of_busx {i : Instr} {a : Access} {off : BitVec 8} {v : Word} (he : encode i = busx a off)
    (hw : wordToCmd i = some v) : a = .write v ∧ off = 0x80#8 := by
  simp only [wordToCmd, he] at hw
  cases a with
  | read =>
    have hcode : ∀ off : BitVec 8, 0#1 ++ off ≠ 0x180#9 := by decide
    simp [busx, hcode] at hw
  | write d =>
    have hcode : ∀ off : BitVec 8, 1#1 ++ off = 0x180#9 → off = 0x80#8 := by decide
    simp only [busx, Option.ite_none_right_eq_some, Option.some.injEq] at hw
    exact ⟨by rw [hw.2], hcode off hw.1⟩

theorem cmdWrite_of_illegal {v : Word} (h : illegalWord v) (s : State) : cmdWrite v s = dropIllegal s :=
  if_pos (by simpa [illegalWord, BitVec.le_def] using h)

/-- An instruction that brings a word to CMD is `cmd_write` of it (42_commands.md R76, R88). -/
theorem exec_of_wordToCmd {i : Instr} {v : Word} (hwf : i.wf = true) (hw : wordToCmd i = some v) (s : State) :
    exec i s = .next (cmdWrite v s) := by
  cases i
  case nop => cases hw; rfl
  case init => cases hw; rfl
  case compress => cases hw; rfl
  case loadH => cases hw; rfl
  case wrCmd d => cases hw; rfl
  case illegalOp47 low =>
    cases hw
    rw [cmdWrite_of_illegal (.inr (by clear hwf; revert low; decide))]; rfl
  case illegalOp8F low =>
    cases hw
    rw [cmdWrite_of_illegal (.inr (by clear hwf; revert low; decide))]; rfl
  case illegalRsvd rsvd op =>
    cases hw
    have hr : (rsvd ++ op).extractLsb' 4 28 = rsvd := BitVec.extractLsb'_append_eq_left
    rw [cmdWrite_of_illegal (.inl (by rw [hr]; simpa [Instr.wf] using hwf))]; rfl
  all_goals obtain ⟨ha, ho⟩ := wordToCmd_of_busx (by rw [encode]) hw
  all_goals exfalso; clear hwf hw
  case rdMsg | rdHash | rdCmd | rdStatus | rdInfo => cases ha
  case wrStatus | wrInfo | unmapped8C => exact absurd ho (by decide)
  case wrMsg n _ | wrHash n _ => clear ha; revert n; decide
  case misaligned01 q | misaligned10 q | misaligned11 q | unmapped90 q | unmappedA0 q | unmappedC0 q =>
    clear ha; revert q; decide

/-! ### What one input can do -/

/-- Everything one input can do to a state, with what brought it: the refused access, the written word or row, the word
that reached CMD, the tick's round. -/
inductive InputEffect (i : Input) (s : State) : State → Prop
  | refused (c : Cause) (a a' : Access) (off : BitVec 8) (hi : i.instr = some (decode (busx a' off)))
      (hoff : refusedOffset a' off) : InputEffect i s (raiseBusError c a s)
  | read (d : Word) : InputEffect i s (answerRead d s)
  | writeMsg (n : BitVec 4) (d : Word) (hi : i.instr = some (.wrMsg n d)) :
      InputEffect i s (answerWrite (s.withMsg (setBlockWord s.msg n d)))
  | writeStatus (d : Word) (hi : i.statusWrite = some d) :
      InputEffect i s (answerWrite (s.withStatus (s.status.clearBy d)))
  | illegal (v : Word) (hv : i.commandWord = some v) (hill : illegalWord v) : InputEffect i s (dropIllegal s)
  | nop : InputEffect i s (runNop s)
  | busy (hb : s.status.busy = true)
      (hv : i.commandWord = some 1#32 ∨ i.commandWord = some 2#32 ∨ i.commandWord = some 3#32) :
      InputEffect i s (dropBusy s)
  | init (hb : s.status.busy = false) (hv : i.commandWord = some 1#32) : InputEffect i s (runInit s)
  | compress (hb : s.status.busy = false) (hv : i.commandWord = some 2#32) : InputEffect i s (runCompress s)
  | loadH (hb : s.status.busy = false) (hv : i.commandWord = some 3#32) : InputEffect i s (runLoadH s)
  | idleTick : InputEffect i s s
  | tick (hi : i = .tick) (hb : s.status.busy = true) (hr : s.r.toNat < 9) :
      InputEffect i s (s.withRound (rho (roundConst (s.r.toNat + 1)) s.k)
        (rho (rho (roundConst (s.r.toNat + 1)) s.k) s.ws) (BitVec.ofNat 4 (s.r.toNat + 1)))
  | finalTick (hi : i.isFinalTick s) :
      InputEffect i s (finalTick (s.withRound (rho (roundConst 10) s.k) (rho (rho (roundConst 10) s.k) s.ws) 10#4))
  | reset (hi : i = .reset) : InputEffect i s (resetBlock s)

/-- One input that answers a next state brings an instruction of the decoder, or is the engine's turn or a reset. -/
theorem stepInput_instr_cases {i : Input} {s t : State} (h : stepInput i s = .next t) :
    (∃ p, i.instr = some (decode p) ∧ exec (decode p) s = .next t) ∨
    (i = .tick ∧ engineTurn s = .next t) ∨ (i = .reset ∧ t = resetBlock s) := by
  rcases stepInput_cases h with ⟨p, rfl, h⟩ | ⟨a, address, bytes, off, rfl, hw, h⟩ | h
  · exact .inl ⟨p, rfl, h⟩
  · exact .inl ⟨busx a off, by simp [Input.instr, hw], h⟩
  · exact .inr h

theorem commandWord_of_instr {i : Input} {j : Instr} (hi : i.instr = some j) : i.commandWord = wordToCmd j := by
  simp [Input.commandWord, hi]

/-- The effect of an input that brings an instruction of the decoder. -/
theorem inputEffect_of_exec {i : Input} {p : Packet} {s t : State} (hi : i.instr = some (decode p))
    (h : exec (decode p) s = .next t) : InputEffect i s t := by
  have hcmd := commandWord_of_instr hi
  rcases exec_word_cases h with ⟨c, a, rfl⟩ | ⟨d, rfl⟩ | ⟨n, d, hp, rfl⟩ | ⟨d, hp, rfl⟩ | ⟨⟨v, hwf | ⟨hv, hill⟩⟩, rfl⟩ |
    rfl | ⟨v, hv, ⟨hb, hcases, rfl⟩ | ⟨hb, ⟨rfl, rfl⟩ | ⟨rfl, rfl⟩ | ⟨rfl, rfl⟩⟩⟩
  · obtain ⟨a', off, hp, hoff⟩ := refused_row_offset h
    exact .refused c a a' off (by rw [hi, hp]) hoff
  · exact .read d
  · exact .writeMsg n d (by rw [hi, hp])
  · exact .writeStatus d (by simp [Input.statusWrite, hi, hp])
  · rw [wf_decode p] at hwf; cases hwf
  · exact .illegal v (hcmd.trans hv) hill
  · exact .nop
  · exact .busy hb (by rw [hcmd, hv]; simpa using hcases)
  · exact .init hb (hcmd.trans hv)
  · exact .compress hb (hcmd.trans hv)
  · exact .loadH hb (hcmd.trans hv)

/-- Every input that answers a next state has one of these effects. -/
theorem stepInput_effect {i : Input} {s t : State} (h : stepInput i s = .next t) : InputEffect i s t := by
  rcases stepInput_instr_cases h with ⟨p, hi, h⟩ | ⟨rfl, h⟩ | ⟨rfl, rfl⟩
  · exact inputEffect_of_exec hi h
  · rcases engineTurn_cases h with ⟨-, rfl⟩ | ⟨hb, hr, rfl⟩ | ⟨hb, hr, rfl⟩
    · exact .idleTick
    · exact .tick rfl hb hr
    · exact .finalTick ⟨rfl, hb, BitVec.eq_of_toNat_eq hr⟩
  · exact .reset rfl

/-- An input that brings a word to CMD does what `cmd_write` does with it. -/
theorem stepInput_of_commandWord {i : Input} {v : Word} {s t : State} (h : stepInput i s = .next t)
    (hv : i.commandWord = some v) : t = cmdWrite v s := by
  rcases stepInput_instr_cases h with ⟨p, hi, h⟩ | ⟨rfl, -⟩ | ⟨rfl, -⟩
  · rw [commandWord_of_instr hi] at hv
    rw [exec_of_wordToCmd (wf_decode p) hv] at h
    exact (Host.Outcome.next.inj h).symm
  · cases hv
  · cases hv

/-! ### Writers -/

/-- Settles O27: the four effects that write H, each with what brought it. -/
theorem chainingValueWriters : Obligations.ChainingValueWriters := by
  intro i s t h
  cases stepInput_effect h with
  | init hb hv => exact .inr (.inr (.inr ⟨hb, .inl hv⟩))
  | loadH hb hv => exact .inr (.inr (.inr ⟨hb, .inr hv⟩))
  | finalTick hi => exact .inr (.inr (.inl hi))
  | reset hi => exact .inr (.inl hi)
  | _ => exact .inl rfl

/-- Settles O28: a WR_MSG and reset are the effects that write MSG. -/
theorem messageWriters : Obligations.MessageWriters := by
  intro i s t h
  cases stepInput_effect h with
  | writeMsg n d hi => exact .inr (.inr ⟨n, d, hi⟩)
  | reset hi => exact .inr (.inl hi)
  | _ => exact .inl rfl

/-- Settles O29: acceptance of COMPRESS, both kinds of tick and reset are the effects that write the hidden state. -/
theorem hiddenStateWriters : Obligations.HiddenStateWriters := by
  intro i s t h
  cases stepInput_effect h with
  | compress hb hv => exact .inr (.inr (.inr ⟨hb, hv⟩))
  | tick hi hb => exact .inr (.inr (.inl ⟨hi, hb⟩))
  | finalTick hi =>
    obtain ⟨hi, hb, -⟩ := hi
    exact .inr (.inr (.inl ⟨hi, hb⟩))
  | reset hi => exact .inr (.inl hi)
  | _ => exact .inl ⟨rfl, rfl, rfl, rfl⟩

/-! ### Writers of the STATUS flags -/

/-- A flag is as it was, or it is set and `sets` holds, or it is cleared and `clears` holds. -/
def FlagChange (old new : Bool) (sets clears : Prop) : Prop :=
  new = old ∨ (new = true ∧ sets) ∨ (new = false ∧ clears)

section
variable {old new : Bool} {sets clears : Prop}

theorem FlagChange.of_set (h : FlagChange old new sets clears) (ho : old = false) (hn : new = true) : sets := by
  subst ho hn
  simpa [FlagChange] using h

theorem FlagChange.of_clear (h : FlagChange old new sets clears) (ho : old = true) (hn : new = false) : clears := by
  subst ho hn
  simpa [FlagChange] using h

/-- A write-one-to-clear bit keeps the flag where it is 0 and clears it where it is 1 (10_state.md R25). -/
theorem flagChange_w1c {bit : Bool} (h : bit = true → clears) : FlagChange old (old && !bit) sets clears := by
  cases bit with
  | false => exact .inl (by simp)
  | true => exact .inr (.inr ⟨by simp, h rfl⟩)

end

section
variable {i : Input} {s t : State}

theorem busy_flagChange (h : stepInput i s = .next t) :
    FlagChange s.status.busy t.status.busy (i.commandWord = some 2#32) (i = .reset ∨ i.isFinalTick s) := by
  cases stepInput_effect h with
  | compress _ hv => exact .inr (.inl ⟨rfl, hv⟩)
  | finalTick hi => exact .inr (.inr ⟨rfl, .inr hi⟩)
  | reset hi => exact .inr (.inr ⟨rfl, .inl hi⟩)
  | _ => exact .inl rfl

theorem done_flagChange (h : stepInput i s = .next t) :
    FlagChange s.status.done t.status.done
      (i.isFinalTick s ∨ (s.status.busy = false ∧ (i.commandWord = some 1#32 ∨ i.commandWord = some 3#32)))
      (i = .reset ∨ (s.status.busy = false ∧ i.commandWord = some 2#32) ∨
        ∃ d : Word, i.statusWrite = some d ∧ d.getLsbD 1 = true) := by
  cases stepInput_effect h with
  | writeStatus d hi => exact flagChange_w1c fun hd => .inr (.inr ⟨d, hi, hd⟩)
  | init hb hv => exact .inr (.inl ⟨rfl, .inr ⟨hb, .inl hv⟩⟩)
  | compress hb hv => exact .inr (.inr ⟨rfl, .inr (.inl ⟨hb, hv⟩)⟩)
  | loadH hb hv => exact .inr (.inl ⟨rfl, .inr ⟨hb, .inr hv⟩⟩)
  | finalTick hi => exact .inr (.inl ⟨rfl, .inl hi⟩)
  | reset hi => exact .inr (.inr ⟨rfl, .inl hi⟩)
  | _ => exact .inl rfl

theorem errCmd_flagChange (h : stepInput i s = .next t) :
    FlagChange s.status.errCmd t.status.errCmd (∃ v : Word, i.commandWord = some v ∧ illegalWord v)
      (i = .reset ∨ ∃ d : Word, i.statusWrite = some d ∧ d.getLsbD 8 = true) := by
  cases stepInput_effect h with
  | writeStatus d hi => exact flagChange_w1c fun hd => .inr ⟨d, hi, hd⟩
  | illegal v hv hill => exact .inr (.inl ⟨rfl, v, hv, hill⟩)
  | reset hi => exact .inr (.inr ⟨rfl, .inl hi⟩)
  | _ => exact .inl rfl

theorem errBusy_flagChange (h : stepInput i s = .next t) :
    FlagChange s.status.errBusy t.status.errBusy
      (s.status.busy = true ∧
        (i.commandWord = some 1#32 ∨ i.commandWord = some 2#32 ∨ i.commandWord = some 3#32))
      (i = .reset ∨ ∃ d : Word, i.statusWrite = some d ∧ d.getLsbD 9 = true) := by
  cases stepInput_effect h with
  | writeStatus d hi => exact flagChange_w1c fun hd => .inr ⟨d, hi, hd⟩
  | busy hb hv => exact .inr (.inl ⟨rfl, hb, hv⟩)
  | reset hi => exact .inr (.inr ⟨rfl, .inl hi⟩)
  | _ => exact .inl rfl

theorem errBus_flagChange (h : stepInput i s = .next t) :
    FlagChange s.status.errBus t.status.errBus
      (∃ (a : Access) (off : BitVec 8), i.instr = some (decode (busx a off)) ∧ refusedOffset a off)
      (i = .reset ∨ ∃ d : Word, i.statusWrite = some d ∧ d.getLsbD 10 = true) := by
  cases stepInput_effect h with
  | refused _ _ a off hi hoff => exact .inr (.inl ⟨rfl, a, off, hi, hoff⟩)
  | writeStatus d hi => exact flagChange_w1c fun hd => .inr ⟨d, hi, hd⟩
  | reset hi => exact .inr (.inr ⟨rfl, .inl hi⟩)
  | _ => exact .inl rfl

end

/-- `cmd_write` of INIT and of LOAD_H while idle sets DONE (10_state.md R25, "and the set wins"). -/
theorem cmdWrite_done {v : Word} {s : State} (hb : s.status.busy = false) (hv : v = 1#32 ∨ v = 3#32) :
    (cmdWrite v s).status.done = true := by
  rcases hv with rfl | rfl
  · rw [show cmdWrite 1#32 s = whenIdle runInit s from rfl, whenIdle_of_idle hb]; rfl
  · rw [show cmdWrite 3#32 s = whenIdle runLoadH s from rfl, whenIdle_of_idle hb]; rfl

/-- Settles O30: the writers of each flag, and `cmdWrite_done` for the set that wins. -/
theorem busyAndDoneWriters : Obligations.BusyAndDoneWriters := by
  intro i s t h
  refine ⟨(busy_flagChange h).of_set, (busy_flagChange h).of_clear, (done_flagChange h).of_set,
    (done_flagChange h).of_clear, fun hb hv => ?_⟩
  rcases hv with hv | hv
  · rw [stepInput_of_commandWord h hv]; exact cmdWrite_done hb (.inl rfl)
  · rw [stepInput_of_commandWord h hv]; exact cmdWrite_done hb (.inr rfl)

/-- Settles O31: the writers of each error flag. -/
theorem errorFlagWriters : Obligations.ErrorFlagWriters := fun _ _ _ h =>
  ⟨(errCmd_flagChange h).of_set, (errBusy_flagChange h).of_set, (errBus_flagChange h).of_set,
    (errCmd_flagChange h).of_clear, (errBusy_flagChange h).of_clear, (errBus_flagChange h).of_clear⟩

/-! ### What the host can't tell apart

Each shared operation takes states the host can't tell apart to such states. Only a tick reads the hidden state, and
only while BUSY = 1, where the two states are one. -/

section
variable {a b : State}

/-- While BUSY = 1 the host can tell any two states apart. -/
theorem eq_of_hostEqual_of_busy (h : HostEqual a b) (hb : a.status.busy = true) : a = b := by
  obtain ⟨hmsg, hh, hst, hrep, hin, hhid⟩ := h
  obtain ⟨hk, hws, hml, hr⟩ := hhid hb
  cases a; cases b; simp_all

theorem hostEqual_refl (a : State) : HostEqual a a := ⟨rfl, rfl, rfl, rfl, rfl, fun _ => ⟨rfl, rfl, rfl, rfl⟩⟩

theorem hostEqual_msg (h : HostEqual a b) : a.msg = b.msg := h.1

theorem hostEqual_h (h : HostEqual a b) : a.h = b.h := h.2.1

theorem hostEqual_status (h : HostEqual a b) : a.status = b.status := h.2.2.1

theorem hostEqual_withReply (h : HostEqual a b) {rep rep' : Option Reply} (hrep : rep = rep') :
    HostEqual (a.withReply rep) (b.withReply rep') := by
  obtain ⟨hmsg, hh, hst, -, hin, hhid⟩ := h
  exact ⟨hmsg, hh, hst, hrep, hin, hhid⟩

theorem hostEqual_withMsg (h : HostEqual a b) {m m' : Block} (hm : m = m') :
    HostEqual (a.withMsg m) (b.withMsg m') := by
  obtain ⟨-, hh, hst, hrep, hin, hhid⟩ := h
  exact ⟨hm, hh, hst, hrep, hin, hhid⟩

theorem hostEqual_withH (h : HostEqual a b) {g g' : Grid} (hg : g = g') :
    HostEqual (a.withH g) (b.withH g') := by
  obtain ⟨hmsg, -, hst, hrep, hin, hhid⟩ := h
  exact ⟨hmsg, hg, hst, hrep, hin, hhid⟩

/-- An update of the flags that keeps BUSY. -/
theorem hostEqual_withStatus (h : HostEqual a b) {f : Status → Status} (hf : (f a.status).busy = a.status.busy) :
    HostEqual (a.withStatus (f a.status)) (b.withStatus (f b.status)) := by
  obtain ⟨hmsg, hh, hst, hrep, hin, hhid⟩ := h
  exact ⟨hmsg, hh, congrArg f hst, hrep, hin, fun hb => hhid (hf.symm.trans hb)⟩

theorem hostEqual_answerRead (h : HostEqual a b) {d d' : Word} (hd : d = d') :
    HostEqual (answerRead d a) (answerRead d' b) :=
  hostEqual_withReply h (by rw [hd])

theorem hostEqual_raiseBusError (h : HostEqual a b) (c : Cause) (x : Access) :
    HostEqual (raiseBusError c x a) (raiseBusError c x b) :=
  hostEqual_withReply (hostEqual_withStatus h (f := Status.raiseBus) rfl) rfl

theorem hostEqual_dropIllegal (h : HostEqual a b) : HostEqual (dropIllegal a) (dropIllegal b) :=
  hostEqual_withReply (hostEqual_withStatus h (f := Status.raiseCmd) rfl) rfl

theorem hostEqual_dropBusy (h : HostEqual a b) : HostEqual (dropBusy a) (dropBusy b) :=
  hostEqual_withReply (hostEqual_withStatus h (f := Status.raiseBusy) rfl) rfl

theorem hostEqual_runNop (h : HostEqual a b) : HostEqual (runNop a) (runNop b) := hostEqual_withReply h rfl

theorem hostEqual_runInit (h : HostEqual a b) : HostEqual (runInit a) (runInit b) :=
  hostEqual_withReply (hostEqual_withStatus (hostEqual_withH h rfl) (f := Status.complete) rfl) rfl

theorem hostEqual_runLoadH (h : HostEqual a b) : HostEqual (runLoadH a) (runLoadH b) := by
  have hg : blockToGrid a.msg = blockToGrid b.msg := congrArg blockToGrid (hostEqual_msg h)
  exact hostEqual_withReply (hostEqual_withStatus (hostEqual_withH h hg) (f := Status.complete) rfl) rfl

/-- Acceptance of COMPRESS loads the hidden state from MSG and H, which the host sees (41_compression.md R71). -/
theorem hostEqual_runCompress (h : HostEqual a b) : HostEqual (runCompress a) (runCompress b) := by
  obtain ⟨hmsg, hh, hst, -, hin, -⟩ := h
  simp only [runCompress_eq, hmsg, hh, hst, hin]
  exact hostEqual_refl _

theorem hostEqual_whenIdle {run : State → State} (h : HostEqual a b) (hrun : HostEqual (run a) (run b)) :
    HostEqual (whenIdle run a) (whenIdle run b) := by
  unfold whenIdle
  rw [← hostEqual_status h]
  split_ifs
  · exact hostEqual_dropBusy h
  · exact hrun

theorem hostEqual_cmdWrite (h : HostEqual a b) (v : Word) : HostEqual (cmdWrite v a) (cmdWrite v b) := by
  unfold cmdWrite
  rw [← hostEqual_status h]
  split_ifs
  · exact hostEqual_dropIllegal h
  · exact hostEqual_runNop h
  · exact hostEqual_dropBusy h
  · exact hostEqual_runInit h
  · exact hostEqual_runCompress h
  · exact hostEqual_runLoadH h

/-- What an instruction answers depends on what the host sees only. -/
theorem hostEqual_exec {i : Instr} {a' : State} (h : HostEqual a b) (ha : exec i a = .next a') :
    ∃ b', exec i b = .next b' ∧ HostEqual a' b' := by
  cases i <;> cases ha <;> refine ⟨_, rfl, ?_⟩
  case nop => exact hostEqual_runNop h
  case init => exact hostEqual_whenIdle h (hostEqual_runInit h)
  case compress => exact hostEqual_whenIdle h (hostEqual_runCompress h)
  case loadH => exact hostEqual_whenIdle h (hostEqual_runLoadH h)
  case illegalOp47 | illegalOp8F | illegalRsvd => exact hostEqual_dropIllegal h
  case rdMsg n => exact hostEqual_answerRead h (by rw [hostEqual_msg h])
  case rdHash n => exact hostEqual_answerRead h (by rw [hostEqual_h h])
  case rdStatus => exact hostEqual_answerRead h (by rw [hostEqual_status h])
  case rdCmd | rdInfo => exact hostEqual_answerRead h rfl
  case wrMsg n d => exact hostEqual_withReply (hostEqual_withMsg h (by rw [hostEqual_msg h])) rfl
  case wrCmd d => exact hostEqual_cmdWrite h d
  case wrStatus d => exact hostEqual_withReply (hostEqual_withStatus h (f := (·.clearBy d)) rfl) rfl
  all_goals exact hostEqual_raiseBusError h _ _

/-- The engine reads the hidden state only while BUSY = 1, where the two states are one. -/
theorem hostEqual_engineTurn {a' : State} (h : HostEqual a b) (ha : engineTurn a = .next a') :
    ∃ b', engineTurn b = .next b' ∧ HostEqual a' b' := by
  cases hb : a.status.busy with
  | true =>
    obtain rfl := eq_of_hostEqual_of_busy h hb
    exact ⟨a', ha, hostEqual_refl a'⟩
  | false =>
    rw [engineTurn_of_idle hb] at ha
    cases ha
    exact ⟨b, engineTurn_of_idle (hostEqual_status h ▸ hb), h⟩

theorem hostEqual_resetBlock (h : HostEqual a b) : HostEqual (resetBlock a) (resetBlock b) := by
  obtain ⟨-, -, -, -, hin, -⟩ := h
  rw [resetBlock, resetBlock, hin]
  exact hostEqual_refl _

end

theorem runHostAccess_of_ok {base address bytes : Nat} {a : Access} {off : BitVec 8} {s : State}
    (hw : windowOffset base address bytes = .ok off) : runHostAccess base a address bytes s = runAccess a off s := by
  simp only [runHostAccess, hw]

/-- Settles O43, input by input. -/
theorem hiddenStateStaysInvisible : Obligations.HiddenStateStaysInvisible := by
  intro i a b a' h ha
  cases i with
  | packet p => exact hostEqual_exec h ha
  | hostAccess x address bytes =>
    obtain ⟨off, hw, ha⟩ := runHostAccess_cases ha
    obtain ⟨b', hb, h⟩ := hostEqual_exec h ha
    exact ⟨b', (runHostAccess_of_ok hw).trans hb, h⟩
  | tick => exact hostEqual_engineTurn h ha
  | reset =>
    cases ha
    exact ⟨resetBlock b, rfl, hostEqual_resetBlock h⟩

/-! ### Reset -/

/-- Settles O36: r is 0 and BUSY is 0 at reset. -/
theorem engineInvariantAtReset : Obligations.EngineInvariantAtReset := by
  refine ⟨Nat.zero_le _, fun hb => ?_⟩
  cases hb

/-- Settles O44: R33's zeros entry by entry; the other fields are R33's by definition. -/
theorem resetValues : Obligations.ResetValues := by
  have hgrid (i j : Fin 8) : zeroGrid[i][j] = 0#8 := zeroGrid_entry i j i.isLt j.isLt
  exact ⟨fun k => zeroBlock_byte k k.isLt, fun i j => ⟨hgrid i j, hgrid i j, hgrid i j, hgrid i j⟩, rfl, rfl, rfl⟩

end Sys2Proof.Machine

/-! ## Memory (20_memory.md R34 to R46): the window's offsets, the checks of an access, host addresses

Every offset is the offset of a row of the opcode table (`misaligned_offset`, `unmapped_offset`, `mapped_offset`), and an
access there runs that row's instruction (`runAccess_of_encode`); the statements about accesses read off what it does. -/

namespace Sys2Proof.Machine

/-! ### The instruction of an access -/

/-- No bit of an instruction's encoding is dropped (30_encoding.md R50, R52). -/
theorem decode_encode {i : Instr} (hwf : i.wf = true) : decode (encode i) = i := by
  cases i with
  | nop | init | compress | loadH | rdCmd | wrCmd | rdStatus | wrStatus | rdInfo | wrInfo => rfl
  | illegalOp47 low => fin_cases low <;> rfl
  | illegalOp8F low => fin_cases low <;> rfl
  | illegalRsvd rsvd op =>
    have hr : (rsvd ++ op).extractLsb' 4 28 = rsvd := BitVec.extractLsb'_append_eq_left
    have ho : (rsvd ++ op).extractLsb' 0 4 = op := BitVec.extractLsb'_append_eq_right
    simp only [encode, decode, decodeCmdw, hr, ho]
    exact if_pos (by simpa [Instr.wf] using hwf)
  | rdMsg n | wrMsg n _ | rdHash n | wrHash n _ => fin_cases n <;> rfl
  | unmapped8C a => cases a <;> rfl
  | misaligned01 a q | misaligned10 a q | misaligned11 a q | unmapped90 a q | unmappedA0 a q | unmappedC0 a q =>
    cases a <;> fin_cases q <;> rfl

/-- An access is the instruction whose encoding it is. -/
theorem runAccess_of_encode {i : Instr} {a : Access} {off : BitVec 8} (hwf : i.wf = true) (h : encode i = busx a off)
    (s : State) : runAccess a off s = exec i s := by
  rw [runAccess, ← h, decode_encode hwf]

/-! ### Which offsets the rows have -/

theorem misaligned_offset {off : BitVec 8} (h : off.toNat % 4 ≠ 0) :
    ∃ q : BitVec 6, off = q ++ 0b01#2 ∨ off = q ++ 0b10#2 ∨ off = q ++ 0b11#2 :=
  ⟨off.extractLsb' 2 6, by revert off; decide⟩

theorem unmapped_offset {off : BitVec 8} (h : off.toNat % 4 = 0) (h8C : 0x8C ≤ off.toNat) :
    off = 0x8C#8 ∨ (∃ q : BitVec 2, off = 0b1001#4 ++ q ++ 0b00#2) ∨ (∃ q : BitVec 3, off = 0b101#3 ++ q ++ 0b00#2) ∨
      ∃ q : BitVec 4, off = 0b11#2 ++ q ++ 0b00#2 := by
  have hrow : off = 0x8C#8 ∨ off = 0b1001#4 ++ off.extractLsb' 2 2 ++ 0b00#2 ∨
      off = 0b101#3 ++ off.extractLsb' 2 3 ++ 0b00#2 ∨ off = 0b11#2 ++ off.extractLsb' 2 4 ++ 0b00#2 := by
    revert off; decide
  exact hrow.imp_right (Or.imp (fun e => ⟨_, e⟩) (Or.imp (fun e => ⟨_, e⟩) fun e => ⟨_, e⟩))

/-- The map of the window (20_memory.md R35). -/
theorem mapped_offset {off : BitVec 8} (h : off.toNat % 4 = 0) (h8C : off.toNat < 0x8C) :
    (∃ n, off = msgOffset n) ∨ (∃ n, off = hashOffset n) ∨ off = cmdOffset ∨ off = statusOffset ∨ off = infoOffset := by
  have hreg : off = msgOffset (off.extractLsb' 2 4) ∨ off = hashOffset (off.extractLsb' 2 4) ∨ off = cmdOffset ∨
      off = statusOffset ∨ off = infoOffset := by
    revert off; decide
  exact hreg.imp (fun e => ⟨_, e⟩) (Or.imp_left fun e => ⟨_, e⟩)

/-- The offsets of HASH_n (20_memory.md R35). -/
theorem hashOffset_bounds (n : BitVec 4) : 0x40 ≤ (hashOffset n).toNat ∧ (hashOffset n).toNat ≤ 0x7C := by
  revert n; decide

theorem msgOffset_lt (n : BitVec 4) : (msgOffset n).toNat < 0x40 := by
  revert n; decide

/-! ### The checks of an access, in order (20_memory.md R36) -/

theorem runAccess_of_misaligned {off : BitVec 8} (h : off.toNat % 4 ≠ 0) (a : Access) (s : State) :
    runAccess a off s = .next (raiseBusError .misaligned a s) := by
  obtain ⟨q, rfl | rfl | rfl⟩ := misaligned_offset h
  · exact runAccess_of_encode (i := .misaligned01 a q) rfl rfl s
  · exact runAccess_of_encode (i := .misaligned10 a q) rfl rfl s
  · exact runAccess_of_encode (i := .misaligned11 a q) rfl rfl s

theorem runAccess_of_unmapped {off : BitVec 8} (h : off.toNat % 4 = 0) (h8C : 0x8C ≤ off.toNat) (a : Access)
    (s : State) : runAccess a off s = .next (raiseBusError .unmapped a s) := by
  obtain rfl | ⟨q, rfl⟩ | ⟨q, rfl⟩ | ⟨q, rfl⟩ := unmapped_offset h h8C
  · exact runAccess_of_encode (i := .unmapped8C a) rfl rfl s
  · exact runAccess_of_encode (i := .unmapped90 a q) rfl rfl s
  · exact runAccess_of_encode (i := .unmappedA0 a q) rfl rfl s
  · exact runAccess_of_encode (i := .unmappedC0 a q) rfl rfl s

/-- HASH and INFO are the read-only registers (20_memory.md R35, R36). -/
theorem runAccess_of_readOnly {off : BitVec 8} (h : off.toNat % 4 = 0)
    (hro : (0x40 ≤ off.toNat ∧ off.toNat ≤ 0x7C) ∨ off.toNat = 0x88) (d : Word) (s : State) :
    runAccess (.write d) off s = .next (raiseBusError .readOnly (.write d) s) := by
  obtain ⟨n, rfl⟩ | ⟨n, rfl⟩ | rfl | rfl | rfl := mapped_offset h (by omega)
  · have := msgOffset_lt n; omega
  · exact runAccess_of_encode (i := .wrHash n d) rfl rfl s
  · exact absurd hro (by decide)
  · exact absurd hro (by decide)
  · exact runAccess_of_encode (i := .wrInfo d) rfl rfl s

/-- Every register is readable, and a read has no side effect (20_memory.md R42). -/
theorem runAccess_read_of_mapped {off : BitVec 8} (h : off.toNat % 4 = 0) (h8C : off.toNat < 0x8C) (s : State) :
    ∃ d, runAccess .read off s = .next (answerRead d s) := by
  obtain ⟨n, rfl⟩ | ⟨n, rfl⟩ | rfl | rfl | rfl := mapped_offset h h8C
  · exact ⟨_, runAccess_of_encode (i := .rdMsg n) rfl rfl s⟩
  · exact ⟨_, runAccess_of_encode (i := .rdHash n) rfl rfl s⟩
  · exact ⟨_, runAccess_of_encode (i := .rdCmd) rfl rfl s⟩
  · exact ⟨_, runAccess_of_encode (i := .rdStatus) rfl rfl s⟩
  · exact ⟨_, runAccess_of_encode (i := .rdInfo) rfl rfl s⟩

/-- A write that passes the checks writes MSG, CMD or STATUS. -/
theorem runAccess_write_of_passes {off : BitVec 8} {d : Word} (h : ¬ refusedOffset (.write d) off) (s : State) :
    (∃ n, runAccess (.write d) off s = .next (answerWrite (s.withMsg (setBlockWord s.msg n d)))) ∨
    runAccess (.write d) off s = .next (cmdWrite d s) ∨
    runAccess (.write d) off s = .next (answerWrite (s.withStatus (s.status.clearBy d))) := by
  simp only [refusedOffset, not_or, not_and, not_not] at h
  obtain ⟨h4, h8C, hro⟩ := h
  obtain ⟨hhash, hinfo⟩ := hro (by simp)
  obtain ⟨n, rfl⟩ | ⟨n, rfl⟩ | rfl | rfl | rfl := mapped_offset h4 (by omega)
  · exact .inl ⟨n, runAccess_of_encode (i := .wrMsg n d) rfl rfl s⟩
  · have := hashOffset_bounds n; omega
  · exact .inr (.inl (runAccess_of_encode (i := .wrCmd d) rfl rfl s))
  · exact .inr (.inr (runAccess_of_encode (i := .wrStatus d) rfl rfl s))
  · exact absurd rfl hinfo

/-- Every write of CMD answers OK, dropped or not, and no command touches ERR_BUS (42_commands.md R76). -/
theorem cmdWrite_answers_ok (v : Word) (s : State) :
    (∃ cause, (cmdWrite v s).reply = some ⟨.ok, none, cause⟩) ∧ (cmdWrite v s).status.errBus = s.status.errBus := by
  unfold cmdWrite
  split_ifs <;> exact ⟨⟨_, rfl⟩, rfl⟩

/-- An access that passes the checks answers OK and does not set ERR_BUS (60_exceptions.md R111). -/
theorem runAccess_of_passes {a : Access} {off : BitVec 8} (h : ¬ refusedOffset a off) (s : State) :
    ∃ (t : State) (data : Option Word) (cause : Option Cause), runAccess a off s = .next t ∧
      t.reply = some ⟨.ok, data, cause⟩ ∧ (t.status.errBus = true → s.status.errBus = true) := by
  cases a with
  | read =>
    simp only [refusedOffset, not_or, not_not, not_le] at h
    obtain ⟨h4, h8C, -⟩ := h
    obtain ⟨d, hd⟩ := runAccess_read_of_mapped h4 h8C s
    exact ⟨_, _, _, hd, rfl, id⟩
  | write d =>
    obtain ⟨n, hw⟩ | hw | hw := runAccess_write_of_passes h s
    · exact ⟨_, _, _, hw, rfl, id⟩
    · obtain ⟨⟨cause, hrep⟩, hbus⟩ := cmdWrite_answers_ok d s
      exact ⟨_, _, _, hw, hrep, hbus ▸ id⟩
    · exact ⟨_, _, _, hw, rfl, fun hb => (Bool.and_eq_true_iff.mp hb).1⟩

/-- Settles O24: one lemma per check, in order, and `runAccess_of_passes` where none of them refuses. -/
theorem accessFollowsCheckOrder : Obligations.AccessFollowsCheckOrder := by
  intro a off s refusal
  have hrefusal (c : Cause) : .next (raiseBusError c a s) = refusal c := by rw [raiseBusError_eq, errorData_eq]
  refine ⟨fun h4 => ?_, fun h4 h8C => ?_, fun h4 _ ha hro => ?_, fun h => runAccess_of_passes h s⟩
  · rw [runAccess_of_misaligned h4, hrefusal]
  · rw [runAccess_of_unmapped h4 h8C, hrefusal]
  · cases a with
    | read => exact absurd rfl ha
    | write d => rw [runAccess_of_readOnly h4 hro, hrefusal]

/-- Settles O25: each of the five kinds of register is read by `answerRead`, which changes the reply alone. -/
theorem readsHaveNoSideEffect : Obligations.ReadsHaveNoSideEffect := by
  intro off s h4 h8C
  obtain ⟨d, hd⟩ := runAccess_read_of_mapped h4 h8C s
  exact ⟨d, by rw [hd, answerRead_eq]⟩

/-! ### Host addresses (20_memory.md R34, R41) -/

section
variable (base : Nat)

theorem windowOffset_of_offset (off : BitVec 8) : windowOffset base (base + off.toNat) 4 = .ok off := by
  have hin : base ≤ base + off.toNat ∧ base + off.toNat < base + 256 := by omega
  simp [windowOffset, hin]

theorem windowOffset_of_width (address : Nat) {bytes : Nat} (h : bytes ≠ 4) :
    windowOffset base address bytes = .error .accessWidth := if_pos h

theorem windowOffset_of_outside {address : Nat} (h : address < base ∨ base + 256 ≤ address) :
    windowOffset base address 4 = .error .outsideWindow := by
  have hout : ¬ (base ≤ address ∧ address < base + 256) := by omega
  simp [windowOffset, hout]

end

/-- An access that reaches no offset is refused with the window's reason. -/
theorem runHostAccess_of_error {base address bytes : Nat} {e : Refusal} (hw : windowOffset base address bytes = .error e)
    (a : Access) (s : State) : runHostAccess base a address bytes s = .refused e := by
  simp only [runHostAccess, hw]

/-- Settles O51: what `windowOffset` answers decides the access, for any base and so for the machine's own. -/
theorem hostAddressesReachOffsets : Obligations.HostAddressesReachOffsets := by
  intro base a s
  have hoffset (base : Nat) (off : BitVec 8) : runHostAccess base a (base + off.toNat) 4 s = runAccess a off s :=
    runHostAccess_of_ok (windowOffset_of_offset base off)
  have hwidth (base address bytes : Nat) (h : bytes ≠ 4) :
      runHostAccess base a address bytes s = .refused .accessWidth :=
    runHostAccess_of_error (windowOffset_of_width base address h) a s
  have houtside (base address : Nat) (h : address < base ∨ base + 256 ≤ address) :
      runHostAccess base a address 4 s = .refused .outsideWindow :=
    runHostAccess_of_error (windowOffset_of_outside base h) a s
  exact ⟨hoffset base, hwidth base, houtside base, hoffset Config.base, hwidth Config.base, houtside Config.base,
    Nat.mul_mod_right 256 Config.windowPage⟩

end Sys2Proof.Machine

/-! ## Encoding (30_encoding.md R48 to R53): the encoder, the decoder and the rows of the opcode table

Every command word and every transaction is an encoding (`exists_encode_eq_cmdw`, `exists_encode_eq_busx`), so
`decode_encode` gives the other composition too. Its own row selects a packet because it selects the encoding
(`Laws.EncodedRow`); no second row does, because the rows exclude each other (`opcodeTable_pairwise_excludes`). -/

namespace Sys2Proof

open Machine

/-- The words of every well-formed instruction are selected by its own row, constructor by constructor in the table's
order. -/
theorem Laws.EncodedRow.all (i : Instr) : Statement i := by
  cases i
  exacts [nop, init, compress, loadH, illegalOp47 _, illegalOp8F _, illegalRsvd _ _, misaligned01 _ _, misaligned10 _ _,
    misaligned11 _ _, rdMsg _, wrMsg _ _, rdHash _, wrHash _ _, rdCmd, wrCmd _, rdStatus, wrStatus _, rdInfo, wrInfo _,
    unmapped8C _, unmapped90 _ _, unmappedA0 _ _, unmappedC0 _ _]

/-! ### Every packet is an encoding -/

/-- Every command word is in the table of 30_encoding.md R50: with RSVD zero OP decides, else RSVD does (R51). -/
theorem exists_encode_eq_cmdw (v : Word) : ∃ i : Instr, i.wf = true ∧ encode i = .cmdw v := by
  have hv : v.extractLsb' 4 28 ++ v.extractLsb' 0 4 = v := BitVec.extractLsb'_append_extractLsb'
  generalize v.extractLsb' 4 28 = rsvd, v.extractLsb' 0 4 = op at hv
  subst hv
  by_cases hr : rsvd = 0#28
  · subst hr
    have hop : ∀ op : BitVec 4, encode (decodeCmdw (0#28 ++ op)) = .cmdw (0#28 ++ op) := by decide
    exact ⟨decodeCmdw (0#28 ++ op), wf_decode (.cmdw _), hop op⟩
  · exact ⟨.illegalRsvd rsvd op, by simpa [Instr.wf] using hr, rfl⟩

/-- Every access is in the table of 30_encoding.md R52: its offset is the offset of a row. -/
theorem exists_encode_eq_busx (a : Access) (off : BitVec 8) : ∃ i : Instr, i.wf = true ∧ encode i = busx a off := by
  by_cases h4 : off.toNat % 4 = 0
  · by_cases h8C : off.toNat < 0x8C
    · cases a with
      | read =>
        obtain ⟨n, rfl⟩ | ⟨n, rfl⟩ | rfl | rfl | rfl := mapped_offset h4 h8C
        exacts [⟨.rdMsg n, rfl, rfl⟩, ⟨.rdHash n, rfl, rfl⟩, ⟨.rdCmd, rfl, rfl⟩, ⟨.rdStatus, rfl, rfl⟩,
          ⟨.rdInfo, rfl, rfl⟩]
      | write d =>
        obtain ⟨n, rfl⟩ | ⟨n, rfl⟩ | rfl | rfl | rfl := mapped_offset h4 h8C
        exacts [⟨.wrMsg n d, rfl, rfl⟩, ⟨.wrHash n d, rfl, rfl⟩, ⟨.wrCmd d, rfl, rfl⟩, ⟨.wrStatus d, rfl, rfl⟩,
          ⟨.wrInfo d, rfl, rfl⟩]
    · obtain rfl | ⟨q, rfl⟩ | ⟨q, rfl⟩ | ⟨q, rfl⟩ := unmapped_offset h4 (Nat.le_of_not_lt h8C)
      exacts [⟨.unmapped8C a, rfl, rfl⟩, ⟨.unmapped90 a q, rfl, rfl⟩, ⟨.unmappedA0 a q, rfl, rfl⟩,
        ⟨.unmappedC0 a q, rfl, rfl⟩]
  · obtain ⟨q, rfl | rfl | rfl⟩ := misaligned_offset h4
    exacts [⟨.misaligned01 a q, rfl, rfl⟩, ⟨.misaligned10 a q, rfl, rfl⟩, ⟨.misaligned11 a q, rfl, rfl⟩]

/-- A packet that is an encoding is the encoding of what it decodes to. -/
theorem encode_decode_of_exists {p : Packet} (h : ∃ i : Instr, i.wf = true ∧ encode i = p) : encode (decode p) = p := by
  obtain ⟨i, hwf, rfl⟩ := h
  rw [decode_encode hwf]

/-! ### A read has no data (log 13) -/

/-- Bit 8 of a transaction code is W. -/
theorem getLsbD_eight_iff (code : BitVec 9) : code.getLsbD 8 = true ↔ code.extractLsb' 8 1 = 1#1 := by
  revert code; decide

/-- The transaction code and its data, read as a direction and an offset. -/
theorem busx_decodeAccess (code : BitVec 9) (d : Word) :
    busx (decodeAccess code d) (code.extractLsb' 0 8) = .busx code (if code.getLsbD 8 = true then d else 0#32) := by
  have hcode : code.extractLsb' 8 1 ++ code.extractLsb' 0 8 = code := BitVec.extractLsb'_append_extractLsb'
  simp only [decodeAccess, getLsbD_eight_iff]
  obtain hw | hw := BitVec.eq_zero_or_eq_one (code.extractLsb' 8 1)
  · rw [hw] at hcode ⊢
    exact congrArg (Packet.busx · 0#32) hcode
  · rw [hw] at hcode ⊢
    exact congrArg (Packet.busx · d) hcode

theorem decodeBusx_eq_decode_busx (code : BitVec 9) (d : Word) :
    decodeBusx code d = decode (busx (decodeAccess code d) (code.extractLsb' 0 8)) := by
  have ha : decodeAccess code (if code.getLsbD 8 = true then d else 0#32) = decodeAccess code d := by
    simp only [decodeAccess, getLsbD_eight_iff]
    split_ifs <;> rfl
  rw [busx_decodeAccess, decode, decodeBusx, decodeBusx, ha]

theorem encode_decodeBusx (code : BitVec 9) (d : Word) :
    encode (decodeBusx code d) = .busx code (if code.getLsbD 8 = true then d else 0#32) := by
  rw [decodeBusx_eq_decode_busx, encode_decode_of_exists (exists_encode_eq_busx _ _), busx_decodeAccess]

/-! ### The rows of the opcode table (spec/opcode_table.json) exclude each other -/

/-- No row reads the data of a transaction, so a row selects a packet when it selects the encoding it decodes to. -/
theorem Row.selects_encode_decode (row : Row) (p : Packet) : row.selects (encode (decode p)) = row.selects p := by
  cases p with
  | cmdw v => rw [encode_decode_of_exists (exists_encode_eq_cmdw v)]
  | busx code d => rw [decode, encode_decodeBusx]; rfl

/-- A check that no word matches both patterns: two mask-and-match pairs whose match words differ where both masks look,
or a pair that asks for v[31:4] = 0 beside the pattern that asks for v[31:4] ≠ 0. -/
def Pattern.excludes : Pattern → Pattern → Bool
  | .maskMatch mask mtch, .maskMatch mask' mtch' => mtch &&& mask' != mtch' &&& mask
  | .maskMatch mask mtch, .rsvdNonzero =>
    mask.extractLsb' 4 28 == BitVec.allOnes 28 && mtch.extractLsb' 4 28 == 0#28
  | _, _ => false

theorem Pattern.not_selects_of_excludes {q q' : Pattern} {w : Word} (hex : q.excludes q' = true)
    (h : q.selects w = true) : ¬ q'.selects w = true := by
  intro h'
  cases q with
  | rsvdNonzero => cases hex
  | maskMatch mask mtch =>
    obtain rfl : w &&& mask = mtch := by simpa [Pattern.selects] using h
    cases q' with
    | maskMatch mask' mtch' =>
      obtain rfl : w &&& mask' = mtch' := by simpa [Pattern.selects] using h'
      have hne : w &&& mask &&& mask' ≠ w &&& mask' &&& mask := by simpa [Pattern.excludes] using hex
      exact hne (by rw [BitVec.and_assoc, BitVec.and_comm mask, BitVec.and_assoc])
    | rsvdNonzero =>
      have hw : w.extractLsb' 4 28 ≠ 0#28 := by simpa [Pattern.selects] using h'
      obtain ⟨hmask, hzero⟩ : mask.extractLsb' 4 28 = BitVec.allOnes 28 ∧ (w &&& mask).extractLsb' 4 28 = 0#28 := by
        simpa only [Pattern.excludes, Bool.and_eq_true, beq_iff_eq] using hex
      rw [BitVec.extractLsb'_and, hmask, BitVec.and_allOnes] at hzero
      exact hw hzero

/-- A check that no packet is selected by both rows: the formats differ or the patterns exclude each other. -/
def Row.excludes (row row' : Row) : Bool := row.format != row'.format || row.pattern.excludes row'.pattern

theorem Row.not_selects_of_excludes {row row' : Row} {p : Packet} (hex : row.excludes row' = true)
    (h : row.selects p = true) : ¬ row'.selects p = true := by
  intro h'
  have hp : row.format = row'.format ∧ ∃ w, row.pattern.selects w = true ∧ row'.pattern.selects w = true := by
    cases p with
    | cmdw v | busx v _ =>
      simp only [Row.selects, Bool.and_eq_true, beq_iff_eq] at h h'
      obtain ⟨hf, hw⟩ := h
      obtain ⟨hf', hw'⟩ := h'
      exact ⟨hf.trans hf'.symm, _, hw, hw'⟩
  obtain ⟨hformat, w, hw, hw'⟩ := hp
  have hpattern : row.pattern.excludes row'.pattern = true := by simpa [Row.excludes, hformat] using hex
  exact Pattern.not_selects_of_excludes hpattern hw hw'

theorem opcodeTable_pairwise_excludes : opcodeTable.Pairwise fun row row' => row.excludes row' = true := by decide

/-- Two rows that select one packet stand in one place of the table. -/
theorem opcodeTable_index_unique {p : Packet} {j k : Nat} {row row' : Row} (hj : opcodeTable[j]? = some row)
    (hk : opcodeTable[k]? = some row') (h : row.selects p = true) (h' : row'.selects p = true) : j = k := by
  obtain ⟨hjlt, rfl⟩ := List.getElem?_eq_some_iff.mp hj
  obtain ⟨hklt, rfl⟩ := List.getElem?_eq_some_iff.mp hk
  have hex := List.pairwise_iff_getElem.mp opcodeTable_pairwise_excludes
  rcases Nat.lt_trichotomy j k with hlt | heq | hgt
  · exact absurd h' (Row.not_selects_of_excludes (hex j k hjlt hklt hlt) h)
  · exact heq
  · exact absurd h (Row.not_selects_of_excludes (hex k j hklt hjlt hgt) h')

/-- The row of the instruction a packet decodes to selects the packet. -/
theorem rowIndex_decode_selects (p : Packet) :
    ∃ row, opcodeTable[(decode p).rowIndex.val]? = some row ∧ row.selects p = true := by
  obtain ⟨row, hrow, hsel⟩ := Laws.EncodedRow.all (decode p) (wf_decode p)
  exact ⟨row, hrow, by rwa [Row.selects_encode_decode] at hsel⟩

/-! ### The statements -/

/-- Settles O1: `decode_encode`, constructor by constructor. -/
theorem decodeOfEncodeIsIdentity : Obligations.DecodeOfEncodeIsIdentity := fun _ hwf => decode_encode hwf

/-- Settles O2: every command word and every access is an encoding, and the encoder is undone by the decoder. -/
theorem encodeOfDecodeIsIdentity : Obligations.EncodeOfDecodeIsIdentity :=
  ⟨fun v => ⟨wf_decode (.cmdw v), encode_decode_of_exists (exists_encode_eq_cmdw v)⟩,
    fun code d => ⟨wf_decode (.busx code d), encode_decodeBusx code d⟩⟩

/-- Settles O3: a packet's own row selects it, and two rows that select it stand in one place. -/
theorem everyPacketSelectsExactlyOneRow : Obligations.EveryPacketSelectsExactlyOneRow := by
  refine ⟨rfl, fun p j row hrow => ?_⟩
  obtain ⟨own, hown, hsel⟩ := rowIndex_decode_selects p
  constructor
  · intro h
    exact opcodeTable_index_unique hrow hown h hsel
  · rintro rfl
    obtain rfl : own = row := Option.some.inj (hown.symm.trans hrow)
    exact hsel

/-- Settles O4: each word is, by the tables, the encoding of the instruction it stands for. -/
theorem specWordsDecode : Obligations.SpecWordsDecode :=
  ⟨decode_encode (i := .compress) rfl, decode_encode (i := .illegalOp47 3#2) rfl,
    decode_encode (i := .illegalOp8F 5#3) rfl, decode_encode (i := .illegalRsvd 1#28 0#4) rfl,
    decode_encode (i := .rdMsg 15#4) rfl, decode_encode (i := .wrMsg 1#4 0xAABBCCDD#32) rfl,
    decode_encode (i := .rdHash 0#4) rfl, decode_encode (i := .wrCmd 2#32) rfl, decode_encode (i := .rdStatus) rfl,
    decode_encode (i := .wrInfo 7#32) rfl, decode_encode (i := .misaligned10 .read 0x20#6) rfl,
    decode_encode (i := .unmapped8C .read) rfl, decode_encode (i := .unmappedC0 (.write 1#32) 15#4) rfl⟩

end Sys2Proof

/-! ## The round function and its field (40_round_function.md R55 to R65; 00_scope.md R15)

The field's product is additive in its left factor and commutes with multiplication by x. From these two facts, by
induction on the turns of R15's loop, it is commutative, associative and additive in both factors. So θ is linear, and
multiplying each row by the inverse of the diffusion matrix undoes it. The S-box is undone through its mini-boxes, π
moves entries and σ is its own inverse. -/

namespace Sys2Proof.Machine

/-! ### The field (00_scope.md R15) -/

/-- The reduction of a sum is the sum of the reductions: the two top bits cancel when both are set. -/
theorem reduction_xor (a b : Byte) : (if (a ^^^ b).msb then 0x1D#8 else 0#8) =
    (if a.msb then 0x1D#8 else 0#8) ^^^ (if b.msb then 0x1D#8 else 0#8) := by
  rw [BitVec.msb_xor]
  cases a.msb <;> cases b.msb <;> rfl

theorem xtime_xor (a b : Byte) : xtime (a ^^^ b) = xtime a ^^^ xtime b := by
  simp only [xtime, BitVec.shiftLeft_xor_distrib, reduction_xor]
  ac_rfl

@[simp] theorem xtime_zero : xtime 0#8 = 0#8 := by decide

/-- A map on bytes that keeps XOR and multiplication by x: a linear map over the field. -/
structure FieldLinear (f : Byte → Byte) : Prop where
  map_xor : ∀ a b, f (a ^^^ b) = f a ^^^ f b
  map_xtime : ∀ a, f (xtime a) = xtime (f a)

theorem FieldLinear.map_zero {f : Byte → Byte} (hf : FieldLinear f) : f 0#8 = 0#8 := by
  simpa using hf.map_xor 0#8 0#8

/-- A linear map passes through one turn of R15's loop. -/
theorem FieldLinear.map_gmulTurn {f : Byte → Byte} (hf : FieldLinear f) (b : Byte) (pa : Byte × Byte) (k : Nat) :
    gmulTurn b (Prod.map f f pa) k = Prod.map f f (gmulTurn b pa k) := by
  cases hb : b.getLsbD k <;> simp [gmulTurn, hb, hf.map_xor, hf.map_xtime]

/-- A linear map moves into the left factor of a product. -/
theorem FieldLinear.map_gmul {f : Byte → Byte} (hf : FieldLinear f) (a b : Byte) : f (gmul a b) = gmul (f a) b := by
  have hloop := List.foldl_hom (Prod.map f f) (g₁ := gmulTurn b) (g₂ := gmulTurn b) (l := [0, 1, 2, 3, 4, 5, 6, 7])
    (init := (0#8, a)) (hf.map_gmulTurn b)
  rw [Prod.map_apply, hf.map_zero] at hloop
  exact (congrArg Prod.fst hloop).symm

theorem xtime_fieldLinear : FieldLinear xtime := ⟨xtime_xor, fun _ => rfl⟩

/-- The pairs of R15's loop, added in both places. -/
def xorPair (pa qc : Byte × Byte) : Byte × Byte := (pa.1 ^^^ qc.1, pa.2 ^^^ qc.2)

theorem gmulTurn_xorPair (b : Byte) (pa qc : Byte × Byte) (k : Nat) :
    gmulTurn b (xorPair pa qc) k = xorPair (gmulTurn b pa k) (gmulTurn b qc k) := by
  cases hb : b.getLsbD k
  · simp [gmulTurn, xorPair, hb, xtime_xor]
  · simp only [gmulTurn, xorPair, hb, xtime_xor, if_true, Prod.mk.injEq, and_true]
    ac_rfl

theorem foldl_gmulTurn_xorPair (b : Byte) (ks : List Nat) (pa qc : Byte × Byte) :
    ks.foldl (gmulTurn b) (xorPair pa qc) = xorPair (ks.foldl (gmulTurn b) pa) (ks.foldl (gmulTurn b) qc) := by
  induction ks generalizing pa qc with
  | nil => rfl
  | cons k ks ih => rw [List.foldl_cons, gmulTurn_xorPair, ih, List.foldl_cons, List.foldl_cons]

theorem gmul_xor_left (a b c : Byte) : gmul (a ^^^ b) c = gmul a c ^^^ gmul b c := by
  have hloop := foldl_gmulTurn_xorPair c [0, 1, 2, 3, 4, 5, 6, 7] (0#8, a) (0#8, b)
  rw [xorPair, BitVec.xor_self] at hloop
  exact congrArg Prod.fst hloop

theorem gmul_fieldLinear (c : Byte) : FieldLinear fun a => gmul a c :=
  ⟨fun a b => gmul_xor_left a b c, fun a => (xtime_fieldLinear.map_gmul a c).symm⟩

theorem gmul_right_comm (a b c : Byte) : gmul (gmul a b) c = gmul (gmul a c) b := (gmul_fieldLinear c).map_gmul a b

@[simp] theorem one_gmul (a : Byte) : gmul 0x01#8 a = a := by revert a; decide

theorem gmul_comm (a b : Byte) : gmul a b = gmul b a := by
  simpa using gmul_right_comm 0x01#8 a b

theorem gmul_assoc (a b c : Byte) : gmul (gmul a b) c = gmul a (gmul b c) := by
  rw [gmul_comm a b, gmul_right_comm, gmul_comm]

theorem gmul_xor_right (a b c : Byte) : gmul a (b ^^^ c) = gmul a b ^^^ gmul a c := by
  rw [gmul_comm, gmul_xor_left, gmul_comm b, gmul_comm c]

@[simp] theorem gmul_one (a : Byte) : gmul a 0x01#8 = a := by rw [gmul_comm, one_gmul]

@[simp] theorem zero_gmul (a : Byte) : gmul 0#8 a = 0#8 := (gmul_fieldLinear a).map_zero

@[simp] theorem gmul_zero (a : Byte) : gmul a 0#8 = 0#8 := by rw [gmul_comm, zero_gmul]

/-- The product by x is R15's doubling. -/
theorem gmul_two (a : Byte) : gmul a 0x02#8 = xtime a := by
  have h2 : (0x02#8 : Byte) = xtime 0x01#8 := by decide
  rw [gmul_comm, h2, ← xtime_fieldLinear.map_gmul, one_gmul]

/-! ### Sums over eight entries -/

theorem xorSum8_xor (f g : Fin 8 → Byte) : xorSum8 (fun k => f k ^^^ g k) = xorSum8 f ^^^ xorSum8 g := by
  simp only [xorSum8]
  ac_rfl

theorem xorSum8_comm (f : Fin 8 → Fin 8 → Byte) :
    xorSum8 (fun j => xorSum8 fun k => f j k) = xorSum8 fun k => xorSum8 fun j => f j k := by
  conv_rhs => arg 1; ext k; unfold xorSum8
  simp only [xorSum8_xor]
  rfl

theorem FieldLinear.map_xorSum8 {f : Byte → Byte} (hf : FieldLinear f) (g : Fin 8 → Byte) :
    f (xorSum8 g) = xorSum8 fun k => f (g k) := by
  simp only [xorSum8, hf.map_xor]

theorem xorSum8_gmul (f : Fin 8 → Byte) (c : Byte) : gmul (xorSum8 f) c = xorSum8 fun k => gmul (f k) c :=
  (gmul_fieldLinear c).map_xorSum8 f

theorem gmul_xorSum8 (a : Byte) (f : Fin 8 → Byte) : gmul a (xorSum8 f) = xorSum8 fun k => gmul a (f k) := by
  simp only [gmul_comm a, xorSum8_gmul]

/-- A sum whose one nonzero term stands at `l`. -/
theorem xorSum8_ite_eq (f : Fin 8 → Byte) (l : Fin 8) : xorSum8 (fun k => if k = l then f k else 0#8) = f l := by
  fin_cases l <;> simp [xorSum8]

/-! ### The layers have inverses -/

/-- The first row of the inverse of the diffusion matrix, circulant as well. -/
def inverseDiffusionRow : Vector Byte 8 := #v[0x04, 0xAF, 0x0E, 0xA4, 0xC2, 0xC2, 0xCB, 0x3E]

/-- The inverse of the diffusion matrix. -/
def inverseDiffusion (k j : Fin 8) : Byte := inverseDiffusionRow[j - k]

theorem diffusion_mul_inverseDiffusion (k l : Fin 8) :
    xorSum8 (fun j => gmul (diffusion k j) (inverseDiffusion j l)) = if k = l then 0x01#8 else 0#8 := by
  revert k l; decide

/-- A row times the diffusion matrix and then its inverse is the row. -/
theorem row_mul_diffusion_mul_inverse (row : Fin 8 → Byte) (l : Fin 8) :
    xorSum8 (fun j => gmul (xorSum8 fun k => gmul (row k) (diffusion k j)) (inverseDiffusion j l)) = row l := by
  calc xorSum8 (fun j => gmul (xorSum8 fun k => gmul (row k) (diffusion k j)) (inverseDiffusion j l))
      = xorSum8 (fun k => gmul (row k) (xorSum8 fun j => gmul (diffusion k j) (inverseDiffusion j l))) := by
        simp only [xorSum8_gmul, gmul_assoc, gmul_xorSum8]
        rw [xorSum8_comm]
    _ = xorSum8 (fun k => if k = l then row k else 0#8) := by
        simp only [diffusion_mul_inverseDiffusion, apply_ite (gmul _), gmul_one, gmul_zero]
    _ = row l := xorSum8_ite_eq row l

theorem theta_injective : Function.Injective theta := fun a b h => grid_ext fun i l => by
  rw [← row_mul_diffusion_mul_inverse (fun k => a[i][k]) l, ← row_mul_diffusion_mul_inverse (fun k => b[i][k]) l]
  simp only [← theta_entry, h]

/-- π moves the entry of row `k`, column `j` down by `j` rows (R60). -/
theorem cyclicPi_entry_add (a : Grid) (k j : Fin 8) : (cyclicPi a)[k + j][j] = a[k][j] := by
  simp only [cyclicPi_entry, add_sub_cancel_right]

theorem cyclicPi_injective : Function.Injective cyclicPi := fun a b h => grid_ext fun k j => by
  rw [← cyclicPi_entry_add a, ← cyclicPi_entry_add b, h]

theorem sigma_injective (key : Grid) : Function.Injective (sigma key) := fun a b h => grid_ext fun i j => by
  have hij : (sigma key a)[i][j] = (sigma key b)[i][j] := by rw [h]
  simpa using hij

/-! ### The S-box (R57, R58) -/

theorem boxE_boxEInv (c : BitVec 4) : nibbleAt boxE (nibbleAt boxEInv c) = c := by revert c; decide

theorem boxEInv_boxE (c : BitVec 4) : nibbleAt boxEInv (nibbleAt boxE c) = c := by revert c; decide

/-- R58's construction read backwards: both nibbles were masked with R of the same value, which their sum still is. -/
def sboxInverse (u : Byte) : Byte :=
  let a := nibbleAt boxEInv (u.extractLsb' 4 4)
  let b := nibbleAt boxE (u.extractLsb' 0 4)
  let t := nibbleAt boxR (a ^^^ b)
  nibbleAt boxEInv (a ^^^ t) ++ nibbleAt boxE (b ^^^ t)

/-- Masking both nibbles with `t` keeps their sum. -/
theorem xor_mask_xor_mask (a b t : BitVec 4) : (a ^^^ t) ^^^ (b ^^^ t) = a ^^^ b := by
  rw [BitVec.xor_comm b t, BitVec.xor_assoc, ← BitVec.xor_assoc t t, BitVec.xor_self, BitVec.zero_xor]

theorem sboxInverse_sboxFromMiniBoxes (u : Byte) : sboxInverse (sboxFromMiniBoxes u) = u := by
  simp only [sboxInverse, sboxFromMiniBoxes, BitVec.extractLsb'_append_eq_left, BitVec.extractLsb'_append_eq_right,
    boxE_boxEInv, boxEInv_boxE, xor_mask_xor_mask]
  simp only [BitVec.xor_assoc, BitVec.xor_self, BitVec.xor_zero, boxE_boxEInv, boxEInv_boxE,
    BitVec.extractLsb'_append_extractLsb']

theorem sbox_eq_sboxFromMiniBoxes (u : Byte) : sbox u = sboxFromMiniBoxes u := by revert u; decide

theorem sbox_injective : Function.Injective sbox :=
  Function.LeftInverse.injective (g := sboxInverse) fun u => by
    rw [sbox_eq_sboxFromMiniBoxes, sboxInverse_sboxFromMiniBoxes]

theorem sbox_surjective : Function.Surjective sbox := Finite.surjective_of_injective sbox_injective

theorem sbox_ne_self (u : Byte) : sbox u ≠ u := by revert u; decide

theorem gamma_injective : Function.Injective gamma := fun a b h => grid_ext fun i j => by
  have hij : (gamma a)[i][j] = (gamma b)[i][j] := by rw [h]
  exact sbox_injective (by simpa using hij)

/-! ### The layers, entry by entry -/

theorem xorSum8_eq_foldl (f : Fin 8 → Byte) : xorSum8 f = ((List.finRange 8).map f).foldl (· ^^^ ·) 0#8 := by
  simp [xorSum8, List.finRange_succ]

/-- R62's circulant, with its first row as a list and the index a natural number modulo 8. -/
theorem diffusion_eq_getD (k j : Fin 8) :
    diffusion k j = ([0x01#8, 0x01#8, 0x04#8, 0x01#8, 0x08#8, 0x05#8, 0x02#8, 0x09#8] : List Byte).getD
      ((j.val + 8 - k.val) % 8) 0#8 := by
  revert k j; decide

theorem roundConst_entry (r : Nat) (i j : Fin 8) :
    (roundConst r)[i][j] = if i = 0 then sbox (BitVec.ofNat 8 (8 * (r - 1) + j.val)) else 0#8 :=
  gridOf_entry _ i j i.isLt j.isLt

/-! ### The statements -/

/-- Settles O46: the entry lemmas of the layers, with the row that lands in row i found by subtraction modulo 8. -/
theorem roundLayersEntrywise : Obligations.RoundLayersEntrywise := by
  intro key a i j
  refine ⟨gamma_entry a i j i.isLt j.isLt, fun k hk => ?_, ?_, sigma_entry key a i j i.isLt j.isLt, rfl,
    fun r _ _ => ?_⟩
  · have hrow : i = k + j := Fin.ext hk.symm
    rw [hrow, cyclicPi_entry_add]
  · rw [theta_entry, xorSum8_eq_foldl]
    simp only [diffusion_eq_getD]
  · rw [roundConst_entry]
    simp only [Fin.ext_iff, Fin.val_zero]

/-- Settles O47: the product is additive in its left factor, and so is a sum of products. -/
theorem thetaIsLinear : Obligations.ThetaIsLinear := by
  refine ⟨grid_ext fun i j => ?_, fun a b => grid_ext fun i j => ?_⟩
  · rw [theta_entry]
    simp [xorSum8]
  · have hxor : ∀ k : Fin 8, (gridXor a b)[i][k] = a[i][k] ^^^ b[i][k] := fun k =>
      gridXor_entry a b i k i.isLt k.isLt
    calc (theta (gridXor a b))[i][j]
        = (theta a)[i][j] ^^^ (theta b)[i][j] := by
          simp only [theta_entry, hxor, gmul_xor_left, xorSum8_xor]
      _ = (gridXor (theta a) (theta b))[i][j] := (gridXor_entry _ _ i j i.isLt j.isLt).symm

/-- Settles O48: each of the four layers is injective. -/
theorem rhoIsInjective : Obligations.RhoIsInjective := fun key _ _ h =>
  gamma_injective (cyclicPi_injective (theta_injective (sigma_injective key h)))

/-- Settles O49: the construction has an inverse, so the table is a permutation of a finite set. -/
theorem sboxTableMatchesConstruction : Obligations.SboxTableMatchesConstruction :=
  ⟨rfl, rfl, rfl, sbox_eq_sboxFromMiniBoxes, sbox_ne_self, sbox_surjective, by decide⟩

/-- Settles O50: 04, 05, 08 and 09 are products and sums of 01 and 02, and the product by 02 is the doubling. -/
theorem fieldProductsFromDoublings : Obligations.FieldProductsFromDoublings := by
  intro x
  have h4 : (0x04#8 : Byte) = gmul 0x02#8 0x02#8 := by decide
  have h8 : (0x08#8 : Byte) = gmul 0x04#8 0x02#8 := by decide
  have h5 : (0x05#8 : Byte) = 0x04#8 ^^^ 0x01#8 := by decide
  have h9 : (0x09#8 : Byte) = 0x08#8 ^^^ 0x01#8 := by decide
  refine ⟨gmul_one x, ?_, ?_, ?_, ?_, ?_⟩
  · rw [gmul_two, xtime, BitVec.msb_eq_getLsbD_last]
  · rw [h4, gmul_assoc]
  · rw [h8, gmul_assoc]
  · rw [h5, gmul_xor_right, gmul_one]
  · rw [h9, gmul_xor_right, gmul_one]

end Sys2Proof.Machine

/-! ## Compression (41_compression.md R70 to R75): acceptance, the ten ticks, any interleaving, successive blocks

`InFlight h0 m k` is R74's invariant: acceptance gives it at k = 0, an input that is no tick and no reset keeps it, a
tick advances k, and the tenth tick writes f. A run with j ticks among its inputs advances k by j, by induction on the
inputs. -/

namespace Sys2Proof.Machine

/-! ### Acceptance (R71) -/

theorem stepInput_compress_of_idle {s : State} (hb : s.status.busy = false) :
    stepInput (.packet (.cmdw 2#32)) s = .next (runCompress s) :=
  exec_compress_of_idle hb

/-- Settles O9: `runCompress` is the state after acceptance; its two new matrices are read off entry by entry. -/
theorem compressAcceptanceLoadsPipeline : Obligations.CompressAcceptanceLoadsPipeline := by
  refine ⟨decode_encode (i := .compress) rfl, fun s hb => ⟨runCompress s, exec_compress_of_idle hb, ?_, rfl⟩⟩
  intro i j k hk
  have hml : (blockToGrid s.msg)[i][j] = s.msg[k] := by simp [← hk]
  refine ⟨hml, ?_⟩
  rw [← hml]
  exact gridXor_entry _ s.h i j i.isLt j.isLt

/-! ### Ticks (R72, R73) -/

/-- Settles O32: the engine's turn while BUSY = 1 is a tick, and r + 1 does not wrap. -/
theorem tickRunsOneRound : Obligations.TickRunsOneRound := by
  intro s hb hr
  have hround : BitVec.ofNat 4 (s.r.toNat + 1) = s.r + 1#4 := by simp [BitVec.ofNat_add]
  rw [stepInput_tick, engineTurn_of_busy hb, tick_of_lt hr, hround]
  rfl

/-- Settles O33: the tenth tick, with its H read off entry by entry. -/
theorem finalTickWritesChainingValue : Obligations.FinalTickWritesChainingValue := by
  intro s hb hr
  have hr9 : s.r.toNat = 9 := by rw [hr]; rfl
  refine ⟨_, (engineTurn_of_busy hb).trans (tick_of_nine hr9), rfl, rfl, rfl, fun i j => ?_, rfl⟩
  simp

/-- Settles O34: an idle engine's turn changes nothing, and with nothing planned it is the whole step. -/
theorem idleEngineDoesNothing : Obligations.IdleEngineDoesNothing := fun _ hb =>
  ⟨engineTurn_of_idle hb, fun hi => (step_of_nil hi).trans (engineTurn_of_idle hb)⟩

/-! ### The engine's invariant (10_state.md R29) -/

theorem engineInv_stepInput {i : Input} {s t : State} (hs : EngineInv s) (h : stepInput i s = .next t) :
    EngineInv t := by
  rcases stepInput_instr_cases h with ⟨_, -, h⟩ | ⟨-, h⟩ | ⟨-, rfl⟩
  · exact engineInv_exec hs h
  · exact engineInv_engineTurn hs h
  · exact engineInv_withInputs.mpr engineInvariantAtReset

/-- Settles O35: a step is the engine's turn or one input, and each keeps the invariant. -/
theorem everyStepKeepsEngineInvariant : Obligations.EveryStepKeepsEngineInvariant := by
  intro s t hs h
  rcases step_cases h with ⟨-, h⟩ | ⟨_, _, -, h⟩
  · exact engineInv_engineTurn hs h
  · exact engineInv_stepInput (engineInv_withInputs.mpr hs) h

/-! ### One input of an in-flight COMPRESS (R74) -/

section
variable {h0 : Grid} {m : Block} {k : Nat} {i : Input} {s t : State}

theorem inFlight_stepInput (hs : InFlight h0 m k s) (htick : i ≠ .tick) (hreset : i ≠ .reset)
    (h : stepInput i s = .next t) : InFlight h0 m k t := by
  rcases stepInput_instr_cases h with ⟨_, -, h⟩ | ⟨hi, -⟩ | ⟨hi, -⟩
  · exact inFlight_exec hs h
  · exact absurd hi htick
  · exact absurd hi hreset

theorem inFlight_stepInput_tick (hs : InFlight h0 m k s) (hk : k < 9) (h : stepInput .tick s = .next t) :
    InFlight h0 m (k + 1) t := by
  obtain ⟨u, hu, hfl, -⟩ := inFlight_tick hs hk
  obtain rfl : u = t := Host.Outcome.next.inj (hu.symm.trans h)
  exact hfl

/-- The tenth tick writes f(h0, m), as the host reads it. -/
theorem compressBlock_of_finalTick (hs : InFlight h0 m 9 s) (h : stepInput .tick s = .next t) :
    gridToBlock t.h = compressBlock (gridToBlock h0) m ∧ t.status.busy = false ∧ t.status.done = true := by
  obtain ⟨u, hu, hh, hst, -⟩ := inFlight_last hs
  obtain rfl : u = t := Host.Outcome.next.inj (hu.symm.trans h)
  rw [hh, hst, compressBlock_gridToBlock]
  exact ⟨rfl, rfl, rfl⟩

/-! ### A run of inputs -/

/-- Whatever the host does between the ticks, the ticks alone advance the pipeline. -/
theorem inFlight_runInputs {is : List Input} (hs : InFlight h0 m k s) (hreset : .reset ∉ is)
    (hk : k + is.count .tick < 10) (h : runInputs is s = .next t) : InFlight h0 m (k + is.count .tick) t := by
  induction is generalizing k s with
  | nil => cases h; exact hs
  | cons i is ih =>
    obtain ⟨u, hu, hrun⟩ := runInputs_cons_inv h
    obtain ⟨hi, hrest⟩ := List.ne_and_not_mem_of_not_mem_cons hreset
    by_cases htick : i = .tick
    · subst htick
      rw [List.count_cons_self, ← Nat.add_assoc, Nat.add_right_comm] at hk ⊢
      exact ih (inFlight_stepInput_tick hs (by omega) hu) hrest hk hrun
    · rw [List.count_cons_of_ne htick] at hk ⊢
      exact ih (inFlight_stepInput hs htick (Ne.symm hi) hu) hrest hk hrun

/-- A run of packets and ticks is not stopped before the tenth tick. -/
theorem runInputs_next_of_inFlight {is : List Input} (hs : InFlight h0 m k s)
    (his : ∀ i ∈ is, i = .tick ∨ ∃ p, i = .packet p) (hk : k + is.count .tick < 10) :
    ∃ t, runInputs is s = .next t := by
  induction is generalizing k s with
  | nil => exact ⟨s, rfl⟩
  | cons i is ih =>
    obtain ⟨rfl | ⟨p, rfl⟩, hrest⟩ := List.forall_mem_cons.mp his
    · rw [List.count_cons_self] at hk
      obtain ⟨u, hu, hfl, -⟩ := inFlight_tick hs (by omega)
      rw [runInputs_cons_of_next (i := .tick) hu]
      exact ih hfl hrest (by omega)
    · rw [List.count_cons_of_ne (by simp)] at hk
      obtain ⟨u, hu⟩ := exec_next (decode p) s
      rw [runInputs_cons_of_next (i := .packet p) hu]
      exact ih (inFlight_exec hs hu) hrest hk

end

/-! ### From acceptance to the tenth tick (R70, R74) -/

section
variable {s : State} (hb : s.status.busy = false)
include hb

/-- Fewer than ten ticks after acceptance the COMPRESS is in flight, and the host sees what acceptance left. -/
theorem runInputs_compress_ticks {j : Nat} (hj : j < 10) :
    ∃ t, runInputs (.packet (.cmdw 2#32) :: List.replicate j .tick) s = .next t ∧ InFlight s.h s.msg j t ∧
      t.msg = s.msg ∧ t.status = s.status.start ∧ t.inputs = s.inputs := by
  obtain ⟨t, ht, hfl, hmsg, hst, hin, -⟩ := inFlight_ticks j (inFlight_runCompress s) (by omega)
  rw [Nat.zero_add] at hfl
  exact ⟨t, (runInputs_cons_of_next (stepInput_compress_of_idle hb)).trans ht, hfl, hmsg, hst, hin⟩

/-- Ten ticks after acceptance the COMPRESS is done. -/
theorem runInputs_compress_tenTicks :
    ∃ t, runInputs (.packet (.cmdw 2#32) :: List.replicate 10 .tick) s = .next t ∧
      t.h = compressGrid s.h (blockToGrid s.msg) ∧ t.status = s.status.finish ∧ t.msg = s.msg ∧
      t.k = roundKey s.h 10 ∧ t.ws = cipherState s.h (blockToGrid s.msg) 10 ∧ t.ml = blockToGrid s.msg ∧
      t.r = 10#4 ∧ t.inputs = s.inputs := by
  obtain ⟨u, hu, hfl, hmsg, hst, hin⟩ := runInputs_compress_ticks hb (show 9 < 10 by decide)
  obtain ⟨t, ht, hh, hst', hmsg', hk, hws, hml, hr, hin', -⟩ := inFlight_last hfl
  refine ⟨t, ?_, hh, by rw [hst', hst]; rfl, hmsg'.trans hmsg, hk, hws, hml, hr, hin'.trans hin⟩
  rw [List.replicate_succ', ← List.cons_append, runInputs_append_of_next hu, runInputs_cons_of_next (i := .tick) ht,
    runInputs_nil]

end

/-- Settles O39: in flight before the tenth tick, done after it. -/
theorem compressTakesExactlyTenTicks : Obligations.CompressTakesExactlyTenTicks := by
  intro s j hb hj
  rcases Nat.lt_or_eq_of_le hj with hlt | rfl
  · obtain ⟨t, ht, ⟨-, -, hr, hk, hws, hml, hh⟩, hmsg, hst, hin⟩ := runInputs_compress_ticks hb hlt
    refine ⟨t, ht, hr, hk, hws, hml, by rw [if_pos hlt, hh], ?_, hmsg, hin⟩
    rw [hst, decide_eq_true hlt, decide_eq_false (Nat.ne_of_lt hlt)]
    rfl
  · obtain ⟨t, ht, hh, hst, hmsg, hk, hws, hml, hr, hin⟩ := runInputs_compress_tenTicks hb
    exact ⟨t, ht, by rw [hr]; rfl, hk, hws, hml, hh, hst, hmsg, hin⟩

/-- Settles O38: one lemma per kind of input. -/
theorem pipelineInvariantUnderInterleaving : Obligations.PipelineInvariantUnderInterleaving := by
  refine ⟨fun s t hb h => ?_, fun h0 m ticks s t i hs hreset h => ⟨fun htick => ?_, ?_, ?_⟩⟩
  · obtain rfl : runCompress s = t := Host.Outcome.next.inj ((exec_compress_of_idle hb).symm.trans h)
    exact inFlight_runCompress s
  · exact inFlight_stepInput hs htick hreset h
  · rintro rfl hk
    exact inFlight_stepInput_tick hs hk h
  · rintro rfl rfl
    exact compressBlock_of_finalTick hs h

/-- Settles O40: the inputs before the tenth tick bring the pipeline to round 9, whatever else is among them. -/
theorem compressResultUnderEveryInterleaving : Obligations.CompressResultUnderEveryInterleaving := by
  intro s is hb hreset hcount
  have hlt : 0 + is.count .tick < 10 := by omega
  have hnine {u : State} (hu : runInputs is (runCompress s) = .next u) : InFlight s.h s.msg 9 u := by
    simpa [hcount] using inFlight_runInputs (inFlight_runCompress s) hreset hlt hu
  rw [runInputs_cons_of_next (stepInput_compress_of_idle hb)]
  refine ⟨fun t h => ?_, fun his => ?_⟩
  · obtain ⟨u, hu, h⟩ := runInputs_append_inv h
    obtain ⟨v, hv, h⟩ := runInputs_cons_inv h
    obtain rfl : v = t := Host.Outcome.next.inj h
    exact compressBlock_of_finalTick (hnine hu) hv
  · obtain ⟨u, hu⟩ := runInputs_next_of_inFlight (inFlight_runCompress s) his hlt
    obtain ⟨t, ht, -⟩ := inFlight_last (hnine hu)
    exact ⟨t, by rw [runInputs_append_of_next hu, runInputs_cons_of_next (i := .tick) ht, runInputs_nil]⟩

/-! ### Successive blocks (R75) -/

/-- Settles O55, by induction on the blocks: each wait leaves the block idle with H = f of the one before. -/
theorem chainedCompressIteratesF : Obligations.ChainedCompressIteratesF := by
  intro s schedule bs hb hk
  induction bs generalizing s with
  | nil => exact ⟨s, rfl, hb, rfl⟩
  | cons b bs ih =>
    obtain ⟨t, ht, -, hh, hst⟩ := hostCompress_eq schedule b hb hk
    obtain ⟨u, hu, hbusy, hu'⟩ := ih t (by rw [hst])
    refine ⟨u, ?_, hbusy, by rw [hu', hh, List.foldl_cons]⟩
    rw [compressAll, List.foldlM_cons, ht]
    exact hu

end Sys2Proof.Machine

/-! ## Commands and register transactions (42_commands.md R76 to R92)

A command word does what `cmd_write` of it does (`exec_decodeCmdw`), and `cmd_write` is one of the shared operations by
the word alone (`cmdWrite_of_illegal`, `cmdWrite_zero` to `cmdWrite_three`). A register access is the row whose encoding
it is; what it reads and writes is known lane by lane. -/

namespace Sys2Proof.Machine

/-! ### Command words (R76 to R82) -/

theorem cmdWrite_zero (s : State) : cmdWrite 0#32 s = runNop s := rfl

theorem cmdWrite_one (s : State) : cmdWrite 1#32 s = whenIdle runInit s := rfl

theorem cmdWrite_two (s : State) : cmdWrite 2#32 s = whenIdle runCompress s := rfl

theorem cmdWrite_three (s : State) : cmdWrite 3#32 s = whenIdle runLoadH s := rfl

/-- The busy check comes before the choice between INIT, COMPRESS and LOAD_H (R76, R78). -/
theorem cmdWrite_of_busy {v : Word} {s : State} (hv : v = 1#32 ∨ v = 2#32 ∨ v = 3#32) (hb : s.status.busy = true) :
    cmdWrite v s = dropBusy s := by
  obtain rfl | rfl | rfl := hv
  · rw [cmdWrite_one, whenIdle_of_busy hb]
  · rw [cmdWrite_two, whenIdle_of_busy hb]
  · rw [cmdWrite_three, whenIdle_of_busy hb]

theorem exec_init_of_idle {s : State} (hb : s.status.busy = false) : exec .init s = .next (runInit s) :=
  congrArg Host.Outcome.next (whenIdle_of_idle hb)

theorem exec_loadH_of_idle {s : State} (hb : s.status.busy = false) : exec .loadH s = .next (runLoadH s) :=
  congrArg Host.Outcome.next (whenIdle_of_idle hb)

theorem exec_wrCmd (v : Word) (s : State) : exec (.wrCmd v) s = .next (cmdWrite v s) := rfl

/-- The row of a command word brings that word to CMD. -/
theorem wordToCmd_decodeCmdw (v : Word) : wordToCmd (decodeCmdw v) = some v := by
  have he : encode (decodeCmdw v) = .cmdw v := encode_decode_of_exists (exists_encode_eq_cmdw v)
  simp only [wordToCmd, he]

theorem exec_decodeCmdw (v : Word) (s : State) : exec (decodeCmdw v) s = .next (cmdWrite v s) :=
  exec_of_wordToCmd (wf_decode (.cmdw v)) (wordToCmd_decodeCmdw v) s

/-- Settles O14: both are `cmd_write` of the word. -/
theorem cmdWriteRunsTheCommandWord : Obligations.CmdWriteRunsTheCommandWord := fun v s => by
  rw [exec_wrCmd, exec_decodeCmdw]

/-- Settles O7: `runNop` writes the reply alone. -/
theorem nopChangesNothing : Obligations.NopChangesNothing :=
  ⟨decode_encode (i := .nop) rfl, fun s => congrArg Host.Outcome.next (runNop_eq s)⟩

/-- Settles O8: while idle INIT is `runInit`, whose new H is the zero matrix. -/
theorem initZeroesChainingValue : Obligations.InitZeroesChainingValue := by
  refine ⟨decode_encode (i := .init) rfl, fun s hb => ⟨runInit s, exec_init_of_idle hb, fun i j => ?_, rfl⟩⟩
  exact zeroGrid_entry i j i.isLt j.isLt

/-- Settles O10: while idle LOAD_H is `runLoadH`, whose new H is μ(MSG). -/
theorem loadHCopiesMessage : Obligations.LoadHCopiesMessage := by
  refine ⟨decode_encode (i := .loadH) rfl, fun s hb => ⟨runLoadH s, exec_loadH_of_idle hb, fun i j k hk => ?_, rfl⟩⟩
  have hmu : (blockToGrid s.msg)[i][j] = s.msg[k] := by simp [← hk]
  exact hmu

/-- Settles O11: each of the three rows passes the busy check. -/
theorem validCommandWhileBusyIsDropped : Obligations.ValidCommandWhileBusyIsDropped := by
  intro s v i hb hv
  have hdrop (run : State → State) : Host.Outcome.next (whenIdle run s) = (.next (dropBusy s) : StepOutcome) :=
    congrArg Host.Outcome.next (whenIdle_of_busy hb)
  obtain ⟨rfl, rfl⟩ | ⟨rfl, rfl⟩ | ⟨rfl, rfl⟩ := hv
  · exact ⟨decode_encode (i := .init) rfl, hdrop runInit⟩
  · exact ⟨decode_encode (i := .compress) rfl, hdrop runCompress⟩
  · exact ⟨decode_encode (i := .loadH) rfl, hdrop runLoadH⟩

/-- Settles O12: the three rows are `dropIllegal`, and so is `cmd_write` of an illegal word. -/
theorem illegalCommandSetsErrCmdOnly : Obligations.IllegalCommandSetsErrCmdOnly := by
  intro s v low2 low3 rsvd op i hi
  rw [← dropIllegal_eq]
  obtain rfl | rfl | rfl | ⟨hv, rfl⟩ := hi
  · rfl
  · rfl
  · rfl
  · rw [decode, exec_decodeCmdw, cmdWrite_of_illegal hv]

/-- Settles O13: `cmd_write` check by check, in its order. -/
theorem cmdWriteChecksInOrder : Obligations.CmdWriteChecksInOrder := by
  intro v s
  simp only [exec_wrCmd]
  refine ⟨decode_write_cmd v, fun hv => ?_, ?_, fun hv hb => ?_, fun hb => ⟨?_, ?_, ?_⟩⟩
  · rw [cmdWrite_of_illegal hv, dropIllegal_eq]
  · rintro rfl
    rw [cmdWrite_zero, runNop_eq]
  · rw [cmdWrite_of_busy hv hb, dropBusy_eq]
  · rintro rfl
    rw [cmdWrite_one, whenIdle_of_idle hb, runInit_eq]
  · rintro rfl
    rw [cmdWrite_two, whenIdle_of_idle hb, runCompress_eq]
  · rintro rfl
    rw [cmdWrite_three, whenIdle_of_idle hb, runLoadH_eq]

/-! ### The registers' offsets as numbers (20_memory.md R35) -/

theorem ofNat_eq_msgOffset (n : BitVec 4) : BitVec.ofNat 8 (4 * n.toNat) = msgOffset n := by revert n; decide

theorem ofNat_eq_hashOffset (n : BitVec 4) : BitVec.ofNat 8 (0x40 + 4 * n.toNat) = hashOffset n := by
  revert n; decide

/-! ### MSG (R83, R84) -/

/-- Byte lane `l` of a register word, with the byte's place as a number (20_memory.md R37). -/
theorem extractLsb'_blockWord (b : Block) (n : BitVec 4) (l : Fin 4) (k : Fin 64) (hk : k.val = 4 * n.toNat + l.val) :
    (blockWord b n).extractLsb' (8 * l.val) 8 = b[k] := by
  obtain rfl : laneIndex n l = k := Fin.ext hk.symm
  exact wordLane_blockWord b n l

/-- Settles O15: RD_MSG answers the register word of MSG. -/
theorem readMsgReturnsLittleEndianLanes : Obligations.ReadMsgReturnsLittleEndianLanes := by
  intro n s
  rw [ofNat_eq_msgOffset]
  exact ⟨decode_encode (i := .rdMsg n) rfl, blockWord s.msg n, rfl, extractLsb'_blockWord s.msg n⟩

/-- Settles O16: `setBlockWord_byte` gives every byte of the new MSG. -/
theorem writeMsgSetsFourBytes : Obligations.WriteMsgSetsFourBytes := by
  intro n d s
  rw [ofNat_eq_msgOffset]
  exact ⟨decode_write_msg n d, answerWrite (s.withMsg (setBlockWord s.msg n d)), rfl, setBlockWord_byte s.msg n d, rfl⟩

/-- Settles O17: a register word of MSG after a register word of MSG is written. -/
theorem writtenMsgWordReadsBack : Obligations.WrittenMsgWordReadsBack := by
  intro n m d s t h
  obtain rfl : answerWrite (s.withMsg (setBlockWord s.msg n d)) = t := Host.Outcome.next.inj h
  refine ⟨_, rfl, ?_⟩
  rw [← blockWord_setBlockWord]
  rfl

/-! ### HASH (R85) -/

/-- HASH[8i + j] = H[i][j] (00_scope.md R14). -/
theorem gridToBlock_flatIndex (g : Grid) (i j : Fin 8) : (gridToBlock g)[flatIndex i j] = g[i][j] := by
  have h := blockToGrid_entry (gridToBlock g) i j i.isLt j.isLt
  rw [blockToGrid_gridToBlock] at h
  exact h.symm

/-- Settles O18: RD_HASH answers the register word of μ⁻¹(H). -/
theorem readHashReturnsChainingValue : Obligations.ReadHashReturnsChainingValue := by
  intro n s
  rw [ofNat_eq_hashOffset]
  refine ⟨decode_read_hash n, blockWord (gridToBlock s.h) n, rfl, fun l i j hij => ?_⟩
  rw [extractLsb'_blockWord _ n l (flatIndex i j) hij]
  exact gridToBlock_flatIndex s.h i j

/-- Settles O56: LOAD_H leaves H = μ(x), and `rdhash` returns μ⁻¹(H). -/
theorem loadedChainingValueReadsBack : Obligations.LoadedChainingValueReadsBack := by
  intro x s hb
  obtain ⟨t, ht, hh, hmsg, -⟩ := hostLoad_eq x hb
  obtain ⟨rep, hread⟩ := rdhash_eq t
  rw [hh, gridToBlock_blockToGrid] at hread
  exact ⟨t, t.withReply rep, ht, hread, hh, hmsg⟩

/-! ### STATUS (R89, R90) -/

/-- The STATUS word bit by bit: the five flags, and zero at every other place (R89). -/
theorem statusWord_getLsbD (st : Status) (k : Nat) :
    st.word.getLsbD k = if k = 0 then st.busy else if k = 1 then st.done else if k = 8 then st.errCmd
      else if k = 9 then st.errBusy else if k = 10 then st.errBus else false := by
  simp only [Status.word, BitVec.getLsbD_append, BitVec.getLsbD_ofBool, BitVec.getLsbD_zero]
  by_cases hk : k < 11
  · interval_cases k <;> rfl
  · obtain ⟨j, rfl⟩ := Nat.exists_eq_add_of_le' (Nat.le_of_not_lt hk)
    simp

/-- Settles O20: `statusWord_getLsbD` at each place. -/
theorem statusReadShowsFlags : Obligations.StatusReadShowsFlags := by
  refine ⟨decode_read_status, fun s => ⟨s.status.word, rfl, ?_⟩⟩
  simp only [statusWord_getLsbD]
  refine ⟨rfl, rfl, rfl, rfl, rfl, fun k h0 h1 h8 h9 h10 => ?_⟩
  rw [if_neg h0, if_neg h1, if_neg h8, if_neg h9, if_neg h10]

/-- Settles O21: `clearBy` flag by flag. -/
theorem statusWriteClearsOnes : Obligations.StatusWriteClearsOnes := fun d _ =>
  ⟨decode_encode (i := .wrStatus d) rfl, rfl⟩

/-! ### CMD and INFO (R87, R91), and the writes of read-only registers (R86, R92) -/

/-- Settles O22: both rows answer their constant. -/
theorem cmdAndInfoReadConstants : Obligations.CmdAndInfoReadConstants :=
  ⟨decode_encode (i := .rdCmd) rfl, decode_read_info, fun s => congrArg Host.Outcome.next (answerRead_eq cmdReadWord s),
    fun s => congrArg Host.Outcome.next (answerRead_eq infoWord s), by decide⟩

/-- Settles O19: both rows are `raiseBusError`. -/
theorem readOnlyWritesRaiseBusError : Obligations.ReadOnlyWritesRaiseBusError := by
  intro n d s off i h
  obtain ⟨rfl, rfl⟩ | ⟨rfl, rfl⟩ := h
  · rw [ofNat_eq_hashOffset]
    exact ⟨decode_encode (i := .wrHash n d) rfl, rfl⟩
  · exact ⟨decode_encode (i := .wrInfo d) rfl, rfl⟩

end Sys2Proof.Machine

/-! ## The host protocol (45_host_protocol.md R93 to R105): padding, digests, chunks, engines that share a block

`digest` is a pure function of the engine and of H, and gives H back (`digest_eq`). A resident engine that was fed a
message holds its tail, its bit count and the iteration of f over its whole blocks (`Engine.Fed`); every update keeps
this, and the digest is then the whole-message function. A saved engine digests from its snapshot once it is made
resident (`digestAt_of_saved`), whatever the block did meanwhile. -/

namespace Sys2Proof.Machine

/-! ### The padding (R98) -/

/-- The number of zero bytes after a tail of at most 63 bytes: the length field ends the first block or the second. -/
theorem padZeros_of_tail {n : Nat} (hn : n ≤ 63) :
    n + 1 + padZeros (n + 1) + 32 = if n ≤ 31 then 64 else 128 := by
  unfold padZeros
  split <;> omega

theorem getElem?_be256 {k : Nat} (hk : k < 32) (len : BitVec 256) :
    (be256 len)[k]? = some ((len >>> (8 * (31 - k))).setWidth 8) := by
  simp [be256, be256Byte, hk, BitVec.setWidth_ushiftRight_eq_extractLsb]

section
variable (tail : List Byte) (len : BitVec 256)

/-- The bytes before the length field. -/
theorem padded_length : (tail ++ [0x80#8] ++ List.replicate (padZeros (tail.length + 1)) 0#8).length =
    tail.length + 1 + padZeros (tail.length + 1) := by
  rw [List.length_append, List.length_append, List.length_singleton, List.length_replicate]

theorem padTail_length : (padTail tail len).length = tail.length + 1 + padZeros (tail.length + 1) + 32 := by
  rw [padTail, List.length_append, padded_length, be256_length]

theorem getElem?_padTail_tail {k : Nat} (hk : k < tail.length) : (padTail tail len)[k]? = tail[k]? := by
  rw [padTail, List.append_assoc, List.append_assoc, List.getElem?_append_left hk]

theorem getElem?_padTail_marker : (padTail tail len)[tail.length]? = some 0x80#8 := by
  simp [padTail]

theorem getElem?_padTail_zero {k : Nat} (hk : tail.length < k)
    (hk' : k < tail.length + 1 + padZeros (tail.length + 1)) : (padTail tail len)[k]? = some 0x00#8 := by
  rw [padTail, List.getElem?_append_left (by rwa [padded_length]), List.getElem?_append_right (by simpa using hk),
    List.getElem?_replicate, if_pos (by simp; omega)]

theorem getElem?_padTail_length (k : Nat) :
    (padTail tail len)[tail.length + 1 + padZeros (tail.length + 1) + k]? = (be256 len)[k]? := by
  rw [padTail, ← padded_length, List.getElem?_append_right (Nat.le_add_right _ _), Nat.add_sub_cancel_left]

end

/-- Settles O57: one lemma per section of the padding, placed by `padZeros_of_tail`. -/
theorem paddingShape : Obligations.PaddingShape := by
  intro tail len htail total
  have htotal : tail.length + 1 + padZeros (tail.length + 1) + 32 = total := padZeros_of_tail htail
  refine ⟨(padTail_length tail len).trans htotal, fun k hk => getElem?_padTail_tail tail len hk,
    getElem?_padTail_marker tail len, fun k hk hk' => getElem?_padTail_zero tail len hk (by omega), fun k hk => ?_⟩
  rw [← htotal, Nat.add_sub_cancel, getElem?_padTail_length, getElem?_be256 hk]

/-! ### `digest` (R99) -/

/-- What `digest` returns for an engine whose chaining value is `h`. -/
def Engine.digestFrom (e : Engine) (h : Grid) : Block :=
  (wholeBlocks (padTail e.buf e.bitLength)).foldl compressBlock (gridToBlock h)

/-- Where an engine's chaining value is held does not matter to its digest. -/
theorem digestFrom_withHome (e : Engine) (home : Residence) (h : Grid) :
    ({ e with home := home } : Engine).digestFrom h = e.digestFrom h := rfl

/-- `digest` of a resident engine while idle: the snapshot taken first is what LOAD_H restores. -/
theorem digest_eq {ks : List Nat} (hk : 10 ≤ ks.sum) {e : Engine} {s : State} (he : e.home = .resident)
    (hb : s.status.busy = false) :
    ∃ t, e.digest ks s = some (e.digestFrom s.h, t) ∧ t.h = s.h ∧ t.status.busy = false := by
  obtain ⟨rep, hsnap⟩ := rdhash_eq s
  obtain ⟨u, hu, hub, huh⟩ := chainedCompressIteratesF (s.withReply rep) ks
    (wholeBlocks (padTail e.buf e.bitLength)) hb hk
  obtain ⟨rep', hread⟩ := rdhash_eq u
  obtain ⟨t, ht, hth, -, hst⟩ := hostLoad_eq (gridToBlock s.h) (s := u.withReply rep') hub
  refine ⟨t, ?_, by rw [hth, blockToGrid_gridToBlock], by rw [hst]; exact hub⟩
  simp only [Engine.digest, he, hsnap, hu, hread, ht, huh, Option.bind_eq_bind, Option.bind_some]
  rfl

/-- Settles O59: `digest` is a function of the engine and H, and leaves both as they were. -/
theorem digestIsIdempotent : Obligations.DigestIsIdempotent := by
  intro e s ks he hb hk
  obtain ⟨t, ht, hth, htb⟩ := digest_eq hk he hb
  obtain ⟨u, hu, -, -⟩ := digest_eq hk he htb
  exact ⟨e.digestFrom s.h, t, u, ht, hth, htb, by rw [← hth]; exact hu⟩

/-! ### Feeding a message in chunks (R95, R96, R104) -/

/-- The bytes after the last whole block of a byte list. -/
def tailOf (x : List Byte) : List Byte := x.drop (64 * (x.length / 64))

theorem tailOf_length (x : List Byte) : (tailOf x).length = x.length % 64 := by
  rw [tailOf, List.length_drop]
  omega

theorem div_length_append (x b : List Byte) :
    (x ++ b).length / 64 = x.length / 64 + (tailOf x ++ b).length / 64 := by
  rw [List.length_append, List.length_append, tailOf_length]
  omega

theorem tailOf_append (x b : List Byte) : tailOf (x ++ b) = tailOf (tailOf x ++ b) := by
  have hdrop : (x ++ b).drop (64 * (x.length / 64)) = tailOf x ++ b :=
    List.drop_append_of_le_length (Nat.mul_div_le x.length 64)
  rw [tailOf, div_length_append, Nat.mul_add, ← List.drop_drop, hdrop, ← tailOf]

/-- The whole blocks of a message whose tail is replaced by other bytes. -/
theorem wholeBlocks_take_append (x b : List Byte) :
    wholeBlocks (x.take (64 * (x.length / 64)) ++ b) = wholeBlocks x ++ wholeBlocks b := by
  rw [wholeBlocks_append _ _ (by rw [List.length_take]; omega), wholeBlocks_take]

theorem wholeBlocks_append_tailOf (x b : List Byte) :
    wholeBlocks (x ++ b) = wholeBlocks x ++ wholeBlocks (tailOf x ++ b) := by
  rw [← wholeBlocks_take_append, tailOf, ← List.append_assoc, List.take_append_drop]

theorem whirlpool_eq (x : List Byte) :
    whirlpool x = (wholeBlocks (padTail (tailOf x) (BitVec.ofNat 256 (8 * x.length)))).foldl compressBlock
      ((wholeBlocks x).foldl compressBlock zeroBlock) := by
  rw [← List.foldl_append, ← wholeBlocks_take_append]
  rfl

/-- An engine after an update by `b`: its whole blocks are counted and leave the buffer. -/
def Engine.appended (b : List Byte) (e : Engine) : Engine :=
  { e with buf := tailOf (e.buf ++ b), count := e.count + BitVec.ofNat 256 (512 * ((e.buf ++ b).length / 64)) }

/-- The resident engine of the idle block `s` that was fed the message `x` (R96, R97). -/
structure Engine.Fed (e : Engine) (x : List Byte) (s : State) : Prop where
  home : e.home = .resident
  idle : s.status.busy = false
  buf : e.buf = tailOf x
  count : e.count = BitVec.ofNat 256 (512 * (x.length / 64))
  chain : gridToBlock s.h = (wholeBlocks x).foldl compressBlock zeroBlock

theorem freshEngine_fed {s : State} (hb : s.status.busy = false) : freshEngine.Fed [] (runInit s) :=
  ⟨rfl, hb, rfl, rfl, gridToBlock_zeroGrid⟩

/-- The new engine is the last of the list that `new` leaves. -/
theorem getElem?_freshEngine (es : List Engine) (h : Grid) :
    (es.map (Engine.demoted h) ++ [freshEngine])[es.length]? = some freshEngine := by
  simp

/-- L(E) is the message's length in bits (R97). -/
theorem Engine.Fed.bitLength_eq {e : Engine} {x : List Byte} {s : State} (h : e.Fed x s) :
    e.bitLength = BitVec.ofNat 256 (8 * x.length) := by
  rw [Engine.bitLength, h.count, h.buf, tailOf_length, ← BitVec.ofNat_add]
  congr 1
  omega

theorem Engine.Fed.digestFrom_eq {e : Engine} {x : List Byte} {s : State} (h : e.Fed x s) :
    e.digestFrom s.h = whirlpool x := by
  rw [Engine.digestFrom, whirlpool_eq, h.bitLength_eq, h.buf, h.chain]

section
variable {ks : List Nat} (hk : 10 ≤ ks.sum) {es : List Engine} {n : Nat} {e : Engine} {s : State}
  (hn : es[n]? = some e)
include hk hn

/-- `update` of a resident engine of the list while idle: only that engine changes in the list. -/
theorem updateAt_eq (b : List Byte) (he : e.home = .resident) (hb : s.status.busy = false) :
    ∃ t, updateAt ks n b es s = some (es.set n (e.appended b), t) ∧ t.status.busy = false ∧
      gridToBlock t.h = (wholeBlocks (e.buf ++ b)).foldl compressBlock (gridToBlock s.h) := by
  obtain ⟨t, ht, htb, hth⟩ := update_eq hk e b he hb
  exact ⟨t, updateAt_of_update hn ht, htb, hth⟩

theorem updateAt_fed {x : List Byte} (b : List Byte) (h : e.Fed x s) :
    ∃ t, updateAt ks n b es s = some (es.set n (e.appended b), t) ∧ (e.appended b).Fed (x ++ b) t := by
  obtain ⟨t, ht, htb, hth⟩ := updateAt_eq hk hn b h.home h.idle
  refine ⟨t, ht, h.home, htb, ?_, ?_, ?_⟩
  · rw [tailOf_append, ← h.buf, Engine.appended]
  · rw [div_length_append, ← h.buf, Nat.mul_add, BitVec.ofNat_add, ← h.count, Engine.appended]
  · rw [hth, h.chain, h.buf, ← List.foldl_append, ← wholeBlocks_append_tailOf]

/-- Any list of updates feeds the engine the concatenation of its chunks. -/
theorem foldlM_updateAt_fed {x : List Byte} (chunks : List (List Byte)) (h : e.Fed x s) :
    ∃ es' e' t, chunks.foldlM (fun (p : List Engine × State) b => updateAt ks n b p.1 p.2) (es, s) = some (es', t) ∧
      es'[n]? = some e' ∧ e'.Fed (x ++ chunks.flatten) t := by
  induction chunks generalizing es e s x with
  | nil => exact ⟨es, e, s, rfl, hn, by simpa using h⟩
  | cons b chunks ih =>
    obtain ⟨t, ht, hfed⟩ := updateAt_fed hk hn b h
    obtain ⟨hlt, -⟩ := List.getElem?_eq_some_iff.mp hn
    obtain ⟨es', e', u, hu, hn', hfed'⟩ := ih (List.getElem?_set_self hlt) hfed
    refine ⟨es', e', u, ?_, hn', by rwa [List.flatten_cons, ← List.append_assoc]⟩
    rw [List.foldlM_cons, ht]
    exact hu

end

/-- Settles O58: the new engine was fed the empty message, and each update feeds it one chunk more. -/
theorem digestIsWhirlpoolOfConcatenation : Obligations.DigestIsWhirlpoolOfConcatenation := by
  intro es s ks chunks hb hk
  obtain ⟨rep, hnew⟩ := newEngine_eq es hb
  obtain ⟨es1, e1, t, hfold, he1, hfed⟩ :=
    foldlM_updateAt_fed hk (getElem?_freshEngine es s.h) chunks (freshEngine_fed (s := s.withReply rep) hb)
  obtain ⟨u, hu, -, -⟩ := digest_eq hk hfed.home hfed.idle
  refine ⟨_, es1, _, t, u, hnew, hfold, ?_⟩
  rw [digestAt_eq he1, hu, hfed.digestFrom_eq, List.nil_append]

/-! ### At most one engine is resident (R93) -/

theorem countP_isResident_concat (es : List Engine) (e : Engine) :
    (es ++ [e]).countP Engine.isResident = es.countP Engine.isResident + if e.isResident then 1 else 0 := by
  rw [List.countP_append, List.countP_singleton]

/-- Replacing one engine of a list makes at most one more resident. -/
theorem countP_isResident_set_le (es : List Engine) (n : Nat) (e : Engine) :
    (es.set n e).countP Engine.isResident ≤ es.countP Engine.isResident + 1 := by
  rcases Nat.lt_or_ge n es.length with hlt | hge
  · rw [List.countP_set hlt]
    split <;> split <;> omega
  · rw [List.set_eq_of_length_le hge]
    omega

/-- Replacing an engine by one that is held in the same place changes the residence of none. -/
theorem countP_isResident_set_of_home {es : List Engine} {n : Nat} {e e' : Engine} (hn : es[n]? = some e)
    (hhome : e'.home = e.home) : (es.set n e').countP Engine.isResident = es.countP Engine.isResident := by
  obtain ⟨hlt, rfl⟩ := List.getElem?_eq_some_iff.mp hn
  have hres : e'.isResident = es[n].isResident := by rw [Engine.isResident, hhome, ← Engine.isResident]
  rw [List.countP_set hlt, hres, Nat.sub_add_cancel (List.boole_getElem_le_countP hlt)]

section
variable {ks : List Nat} {es es' : List Engine} {n : Nat} {s t : State}

theorem newEngine_oneResident (h : newEngine es s = some (es', t)) : OneResident es' := by
  simp only [newEngine, Option.bind_eq_bind, Option.bind_eq_some_iff, Prod.exists, Option.pure_def, Option.some.injEq,
    Prod.mk.injEq] at h
  obtain ⟨saved, u, hsave, v, -, rfl, rfl⟩ := h
  rw [OneResident, countP_isResident_concat, saveEngines_none_resident hsave]
  decide

theorem updateAt_oneResident {b : List Byte} (h1 : OneResident es) (h : updateAt ks n b es s = some (es', t)) :
    OneResident es' := by
  simp only [updateAt, Option.bind_eq_bind, Option.bind_eq_some_iff, Prod.exists, Option.pure_def, Option.some.injEq,
    Prod.mk.injEq] at h
  obtain ⟨e, hn, e', u, hupd, rfl, rfl⟩ := h
  rwa [OneResident, countP_isResident_set_of_home hn (update_home hupd)]

theorem copy_not_resident {e e' : Engine} (h : e.copy s = some (e', t)) : e'.isResident = false := by
  unfold Engine.copy at h
  split at h
  · simp only [Option.bind_eq_bind, Option.bind_eq_some_iff, Prod.exists, Option.pure_def, Option.some.injEq,
      Prod.mk.injEq] at h
    obtain ⟨x, u, -, rfl, rfl⟩ := h
    rfl
  · cases h

theorem copyAt_oneResident (h1 : OneResident es) (h : copyAt n es s = some (es', t)) : OneResident es' := by
  simp only [copyAt, Option.bind_eq_bind, Option.bind_eq_some_iff, Prod.exists, Option.pure_def, Option.some.injEq,
    Prod.mk.injEq] at h
  obtain ⟨e, -, e2, u, hcopy, rfl, rfl⟩ := h
  rw [OneResident, countP_isResident_concat, copy_not_resident hcopy]
  exact h1

theorem makeResidentAt_oneResident (h1 : OneResident es) (h : makeResidentAt n es s = some (es', t)) :
    OneResident es' := by
  simp only [makeResidentAt, Option.bind_eq_bind, Option.bind_eq_some_iff] at h
  obtain ⟨e, -, h⟩ := h
  split at h
  · cases h
    exact h1
  · simp only [Option.bind_eq_some_iff, Prod.exists, Option.pure_def, Option.some.injEq, Prod.mk.injEq] at h
    obtain ⟨saved, u, hsave, v, -, rfl, rfl⟩ := h
    have hle := countP_isResident_set_le saved n { e with home := .resident }
    rwa [saveEngines_none_resident hsave] at hle
  · cases h

/-- Every host operation keeps at most one engine resident. -/
theorem runHostOp_oneResident {op : HostOp} (h1 : OneResident es) (h : runHostOp ks op es s = some (es', t)) :
    OneResident es' := by
  cases op with
  | new => exact newEngine_oneResident h
  | newWith initial =>
    simp only [runHostOp, newEngineWith, Option.bind_eq_bind, Option.bind_eq_some_iff, Prod.exists] at h
    obtain ⟨es1, u, hnew, hupd⟩ := h
    exact updateAt_oneResident (newEngine_oneResident hnew) hupd
  | update n b => exact updateAt_oneResident h1 h
  | digest n =>
    simp only [runHostOp, Option.bind_eq_bind, Option.bind_eq_some_iff, Prod.exists, Option.pure_def,
      Option.some.injEq, Prod.mk.injEq] at h
    obtain ⟨d, u, -, rfl, rfl⟩ := h
    exact h1
  | copy n => exact copyAt_oneResident h1 h
  | makeResident n => exact makeResidentAt_oneResident h1 h

end

/-! ### Copies, and engines made resident again (R94, R101, R105) -/

/-- `copy` of a resident engine while idle: the copy is the engine as it is once saved. -/
theorem copyAt_eq {es : List Engine} {n : Nat} {e : Engine} {s : State} (hn : es[n]? = some e)
    (he : e.home = .resident) (hb : s.status.busy = false) :
    ∃ rep, copyAt n es s = some (es ++ [{ e with home := .saved (gridToBlock s.h) }], s.withReply rep) := by
  obtain ⟨rep, hread⟩ := rdhash_eq s
  exact ⟨rep, by simp [copyAt, hn, Engine.copy, he, hb, hread]⟩

/-- `new(initial)` while idle: the engines beside it are saved from the H of before (log 28). -/
theorem newEngineWith_eq {ks : List Nat} (hk : 10 ≤ ks.sum) (es : List Engine) (initial : List Byte) {s : State}
    (hb : s.status.busy = false) :
    ∃ t, newEngineWith ks initial es s =
        some (es.map (Engine.demoted s.h) ++ [freshEngine.appended initial], t) ∧ t.status.busy = false := by
  obtain ⟨rep, hnew⟩ := newEngine_eq es hb
  obtain ⟨t, ht, htb, -⟩ :=
    updateAt_eq hk (getElem?_freshEngine es s.h) initial rfl (s := runInit (s.withReply rep)) hb
  have hset : (es.map (Engine.demoted s.h) ++ [freshEngine]).set es.length (freshEngine.appended initial) =
      es.map (Engine.demoted s.h) ++ [freshEngine.appended initial] := by simp
  exact ⟨t, by rw [newEngineWith, hnew, ← hset]; exact ht, htb⟩

/-- An engine saved while H was `h`, made resident while idle, has the digest it had then, whatever H is now. -/
theorem digestAt_of_saved {ks : List Nat} (hk : 10 ≤ ks.sum) {es : List Engine} {n : Nat} {e : Engine} {h : Grid}
    {s : State} (hn : es[n]? = some { e with home := .saved (gridToBlock h) }) (hb : s.status.busy = false) :
    ∃ es' t u, es' = (es.map (Engine.demoted s.h)).set n { e with home := .resident } ∧
      makeResidentAt n es s = some (es', t) ∧ digestAt ks n es' t = some (e.digestFrom h, u) := by
  obtain ⟨t, ht, hth, htb⟩ := makeResidentAt_eq hn rfl hb
  obtain ⟨u, hu, -, -⟩ := digest_eq hk (e := { e with home := .resident }) rfl htb
  obtain ⟨hlt, -⟩ := List.getElem?_eq_some_iff.mp hn
  refine ⟨_, t, u, rfl, ht, ?_⟩
  rw [digestAt_eq (List.getElem?_set_self (by simpa using hlt)), hu, hth, blockToGrid_gridToBlock,
    digestFrom_withHome]

/-- Engine number `n` of a list after every engine of it was saved. -/
theorem getElem?_map_demoted {es : List Engine} {n : Nat} {e : Engine} (h : Grid) (hn : es[n]? = some e)
    (he : e.home = .resident) :
    (es.map (Engine.demoted h))[n]? = some { e with home := .saved (gridToBlock h) } := by
  rw [List.getElem?_map, hn, Option.map_some, demoted_of_resident he]

section
variable {ks : List Nat} (hk : 10 ≤ ks.sum) {es : List Engine} {n : Nat} {e : Engine} {s : State}
  (hn : es[n]? = some e) (he : e.home = .resident) (hb : s.status.busy = false) (x : List Byte)
include hk hn he hb

/-- After copy(E), an update of E does not change the digest of the copy, and E is saved as the update left it. -/
theorem copy_digest_of_update :
    ∃ (es1 es2 es3 : List Engine) (e' : Engine) (t u v w : State),
      copyAt n es s = some (es1, t) ∧ updateAt ks n x es1 t = some (es2, u) ∧
      makeResidentAt es.length es2 u = some (es3, v) ∧
      digestAt ks es.length es3 v = some (e.digestFrom s.h, w) ∧
      es2[n]? = some e' ∧ es3[n]? = some { e' with home := .saved (gridToBlock u.h) } := by
  obtain ⟨hlt, -⟩ := List.getElem?_eq_some_iff.mp hn
  obtain ⟨rep, hcopy⟩ := copyAt_eq hn he hb
  set c : Engine := { e with home := .saved (gridToBlock s.h) }
  have hn1 : (es ++ [c])[n]? = some e := by rw [List.getElem?_append_left hlt, hn]
  obtain ⟨u, hu, hub, -⟩ := updateAt_eq hk hn1 x he (s := s.withReply rep) hb
  set es2 := (es ++ [c]).set n (e.appended x)
  have he2 : es2[n]? = some (e.appended x) := List.getElem?_set_self (by simp; omega)
  have hc2 : es2[es.length]? = some c := by rw [List.getElem?_set_ne hlt.ne, List.getElem?_concat_length]
  obtain ⟨_, v, w, rfl, hv, hw⟩ := digestAt_of_saved hk hc2 hub
  refine ⟨_, es2, _, e.appended x, _, u, v, w, hcopy, hu, hv, hw, he2, ?_⟩
  rw [List.getElem?_set_ne hlt.ne', getElem?_map_demoted u.h he2 he]

/-- After copy(E), an update of the copy does not change the digest of E. -/
theorem digest_of_copy_update :
    ∃ (es1 es2 es3 es4 : List Engine) (t u v w z : State),
      copyAt n es s = some (es1, t) ∧ makeResidentAt es.length es1 t = some (es2, u) ∧
      updateAt ks es.length x es2 u = some (es3, v) ∧ makeResidentAt n es3 v = some (es4, w) ∧
      digestAt ks n es4 w = some (e.digestFrom s.h, z) := by
  obtain ⟨hlt, -⟩ := List.getElem?_eq_some_iff.mp hn
  obtain ⟨rep, hcopy⟩ := copyAt_eq hn he hb
  set c : Engine := { e with home := .saved (gridToBlock s.h) }
  have hn1 : (es ++ [c])[n]? = some e := by rw [List.getElem?_append_left hlt, hn]
  obtain ⟨u, hu, -, hub⟩ :=
    makeResidentAt_eq (List.getElem?_concat_length (l := es) (a := c)) rfl (s := s.withReply rep) hb
  have hn2 := getElem?_map_demoted s.h hn1 he
  set c' : Engine := { c with home := .resident }
  set saved := (es ++ [c]).map (Engine.demoted s.h)
  have hc2 : (saved.set es.length c')[es.length]? = some c' := List.getElem?_set_self (by simp [saved])
  obtain ⟨v, hv, hvb, -⟩ := updateAt_eq hk hc2 x rfl hub
  have hn3 : ((saved.set es.length c').set es.length (c'.appended x))[n]? = some c := by
    rw [List.getElem?_set_ne hlt.ne', List.getElem?_set_ne hlt.ne', hn2]
  obtain ⟨_, w, z, -, hw, hz⟩ := digestAt_of_saved hk hn3 hvb
  exact ⟨_, _, _, _, _, u, v, w, z, hcopy, hu, hv, hw, hz⟩

/-- A new engine and its first update do not change the digest of E (log 28). -/
theorem digest_of_newEngineWith :
    ∃ (es1 es2 : List Engine) (t u w : State),
      newEngineWith ks x es s = some (es1, t) ∧ makeResidentAt n es1 t = some (es2, u) ∧
      digestAt ks n es2 u = some (e.digestFrom s.h, w) := by
  obtain ⟨hlt, -⟩ := List.getElem?_eq_some_iff.mp hn
  obtain ⟨t, ht, htb⟩ := newEngineWith_eq hk es x hb
  have hn1 : (es.map (Engine.demoted s.h) ++ [freshEngine.appended x])[n]? =
      some { e with home := .saved (gridToBlock s.h) } := by
    rw [List.getElem?_append_left (by simpa using hlt), getElem?_map_demoted s.h hn he]
  obtain ⟨_, u, w, -, hu, hw⟩ := digestAt_of_saved hk hn1 htb
  exact ⟨_, _, t, u, w, ht, hu, hw⟩

end

/-- Settles O60: every operation keeps at most one engine resident, and a saved engine digests from its snapshot. -/
theorem copyIsIndependent : Obligations.CopyIsIndependent := by
  refine ⟨fun ks op es es' s t h1 h => runHostOp_oneResident h1 h, fun es n e s ks x hn he hb hk => ?_⟩
  obtain ⟨w0, hw0, -, -⟩ := digest_eq hk he hb
  exact ⟨e.digestFrom s.h, w0, (digestAt_eq hn s).trans hw0, copy_digest_of_update hk hn he hb x,
    digest_of_copy_update hk hn he hb x, digest_of_newEngineWith hk hn he hb x⟩

end Sys2Proof.Machine

/-! ## Exceptions (60_exceptions.md R106 to R118): the error an access records, ticks that can't fail, several
blocks in one system

An access records an error by one of three operations, and each sets one error flag (`exec_error_cases`). A fault comes
from the engine's turn alone, and the engine's invariant excludes it there (`engineTurn_next`). A system's event is the
step of the one block it concerns (`systemStep_eq_next_iff`). -/

namespace Sys2Proof.Machine

/-! ### The rows that refuse an access (R109) -/

/-- Settles O23: all seven rows are `raiseBusError`. -/
theorem refusedRowsRaiseBusError : Obligations.RefusedRowsRaiseBusError := by
  intro s a reg q2 q3 q4 refusal
  have hrefusal (c : Cause) : .next (raiseBusError c a s) = refusal c := by rw [raiseBusError_eq, errorData_eq]
  exact ⟨hrefusal .misaligned, hrefusal .misaligned, hrefusal .misaligned, hrefusal .unmapped, hrefusal .unmapped,
    hrefusal .unmapped, hrefusal .unmapped⟩

/-! ### One error flag per access (R111, R113) -/

/-- The error flags of t are flags of s: none becomes set. -/
def NoErrorFlagSet (s t : State) : Prop :=
  (t.status.errBus = true → s.status.errBus = true) ∧ (t.status.errCmd = true → s.status.errCmd = true) ∧
    (t.status.errBusy = true → s.status.errBusy = true)

theorem noErrorFlagSet_of_eq {s t : State} (hbus : t.status.errBus = s.status.errBus)
    (hcmd : t.status.errCmd = s.status.errCmd) (hbusy : t.status.errBusy = s.status.errBusy) : NoErrorFlagSet s t :=
  ⟨hbus ▸ id, hcmd ▸ id, hbusy ▸ id⟩

theorem noErrorFlagSet_clearBy (s : State) (d : Word) : NoErrorFlagSet s (s.withStatus (s.status.clearBy d)) :=
  ⟨fun h => (Bool.and_eq_true_iff.mp h).1, fun h => (Bool.and_eq_true_iff.mp h).1,
    fun h => (Bool.and_eq_true_iff.mp h).1⟩

/-- An instruction raises BusError, drops an illegal word, drops a word while busy, or records no error. -/
theorem exec_error_cases {i : Instr} {s t : State} (h : exec i s = .next t) :
    (∃ c a, t = raiseBusError c a s) ∨ t = dropIllegal s ∨ t = dropBusy s ∨
    (t.reply.bind Reply.cause = none ∧ NoErrorFlagSet s t) := by
  rcases exec_cases h with hbus | ⟨d, rfl⟩ | ⟨n, d, -, rfl⟩ | ⟨d, -, rfl⟩ | rfl | rfl | ⟨-, rfl⟩ |
    ⟨-, rfl | rfl | rfl⟩
  case inl => exact .inl hbus
  case inr.inr.inr.inr.inl => exact .inr (.inl rfl)
  case inr.inr.inr.inr.inr.inr.inl => exact .inr (.inr (.inl rfl))
  case inr.inr.inr.inl => exact .inr (.inr (.inr ⟨rfl, noErrorFlagSet_clearBy s d⟩))
  all_goals exact .inr (.inr (.inr ⟨rfl, noErrorFlagSet_of_eq rfl rfl rfl⟩))

/-- Settles O26: the three operations that record an error set one flag each, and nothing else sets one. -/
theorem oneErrorFlagPerAccess : Obligations.OneErrorFlagPerAccess := by
  intro i s
  obtain ⟨t, h⟩ := exec_next i s
  refine ⟨t, h, ?_⟩
  have hsame : SameHidden s s := ⟨rfl, rfl, rfl, rfl⟩
  rcases exec_error_cases h with ⟨c, a, rfl⟩ | rfl | rfl | ⟨hcause, hflags⟩
  · exact ⟨fun _ _ => ⟨.inl rfl, rfl, rfl, hsame⟩, nofun⟩
  · exact ⟨fun _ _ => ⟨.inr (.inl rfl), rfl, rfl, hsame⟩, nofun⟩
  · exact ⟨fun _ _ => ⟨.inr (.inr rfl), rfl, rfl, hsame⟩, nofun⟩
  · exact ⟨fun c hc => (by rw [hcause] at hc; cases hc), fun _ => hflags⟩

/-! ### No fault under the engine's invariant (R106) -/

theorem exec_ne_fault (i : Instr) (s : State) (f : Fault) : exec i s ≠ .fault f := by
  obtain ⟨t, ht⟩ := exec_next i s
  rw [ht]
  exact nofun

theorem engineTurn_ne_fault {s : State} (hs : EngineInv s) (f : Fault) : engineTurn s ≠ .fault f := by
  obtain ⟨t, ht⟩ := engineTurn_next hs
  rw [ht]
  exact nofun

/-- A host access is an instruction or is refused. -/
theorem runHostAccess_ne_fault (base : Nat) (a : Access) (address bytes : Nat) (s : State) (f : Fault) :
    runHostAccess base a address bytes s ≠ .fault f := by
  cases hw : windowOffset base address bytes with
  | ok off => rw [runHostAccess_of_ok hw]; exact exec_ne_fault _ s f
  | error e => rw [runHostAccess_of_error hw]; exact nofun

theorem stepInput_ne_fault {s : State} (hs : EngineInv s) (i : Input) (f : Fault) : stepInput i s ≠ .fault f := by
  cases i with
  | packet p => exact exec_ne_fault (decode p) s f
  | hostAccess a address bytes => exact runHostAccess_ne_fault Config.base a address bytes s f
  | tick => exact engineTurn_ne_fault hs f
  | reset => exact nofun

/-- Settles O37: neither a planned input nor the engine's turn faults. -/
theorem noStepFaultsUnderInvariant : Obligations.NoStepFaultsUnderInvariant := by
  intro s f hs
  cases hi : s.inputs with
  | nil => rw [step_of_nil hi]; exact engineTurn_ne_fault hs f
  | cons i rest => rw [step_of_cons hi]; exact stepInput_ne_fault (engineInv_withInputs.mpr hs) i f

/-! ### Several blocks in a system (R118; 20_memory.md R34, R44) -/

/-- A system answers a next state exactly where the block the event concerns does, with that block replaced. -/
theorem systemStep_eq_next_iff {e : SystemEvent} {sys sys' : List Placed} :
    systemStep e sys = .next sys' ↔ ∃ (j : Nat) (p : Placed) (t : State),
      e.target sys = some j ∧ sys[j]? = some p ∧ placedStep e p = .next t ∧
      sys' = sys.set j { p with block := t } := by
  constructor
  · intro h
    unfold systemStep at h
    cases hj : e.target sys with
    | none => simp only [hj] at h; cases h
    | some j =>
      cases hp : sys[j]? with
      | none => simp only [hj, hp] at h; cases h
      | some p =>
        cases ht : placedStep e p with
        | next t => simp only [hj, hp, ht] at h; cases h; exact ⟨j, p, t, rfl, hp, ht, rfl⟩
        | fault f => simp only [hj, hp, ht] at h; cases h
        | refused x => simp only [hj, hp, ht] at h; cases h
  · rintro ⟨j, p, t, hj, hp, ht, rfl⟩
    simp only [systemStep, hj, hp, ht]

/-- Settles O52: `systemStep` replaces the one block the event concerns. -/
theorem instancesAreIndependent : Obligations.InstancesAreIndependent := by
  intro e sys sys' h
  obtain ⟨j, p, t, hj, hp, ht, rfl⟩ := systemStep_eq_next_iff.mp h
  refine ⟨List.length_set, fun k hk => List.getElem?_set_ne fun hjk => hk (hj.trans (congrArg some hjk)),
    fun k q hk hq => ?_⟩
  obtain rfl : j = k := Option.some.inj (hj.symm.trans hk)
  obtain rfl : p = q := Option.some.inj (hp.symm.trans hq)
  obtain ⟨hlt, -⟩ := List.getElem?_eq_some_iff.mp hp
  exact ⟨t, ht, List.getElem?_set_self hlt⟩

/-- An address is in the window of its own page and in no other. -/
theorem holds_offset_iff (p : Placed) (page : Nat) (off : BitVec 8) :
    p.holds (256 * page + off.toNat) = true ↔ p.page = page := by
  have hpage : (256 * page + off.toNat) / 256 = page := by omega
  rw [Placed.holds, hpage, beq_iff_eq]

/-- On distinct pages the first block whose window holds an address is the only one. -/
theorem ownerOf_of_nodup {sys : List Placed} {j : Nat} {p : Placed} (hpages : (sys.map Placed.page).Nodup)
    (hp : sys[j]? = some p) (off : BitVec 8) : ownerOf (256 * p.page + off.toNat) sys = some j := by
  obtain ⟨hj, rfl⟩ := List.getElem?_eq_some_iff.mp hp
  refine List.findIdx?_eq_some_iff_getElem.mpr ⟨hj, (holds_offset_iff _ _ off).mpr rfl, fun k hk hholds => hk.ne ?_⟩
  have hpage : (sys.map Placed.page)[k]'(by simp; omega) = (sys.map Placed.page)[j]'(by simpa) := by
    simpa using (holds_offset_iff _ _ off).mp hholds
  exact hpages.getElem_inj_iff.mp hpage

/-- Settles O53: the address belongs to that block alone, and reaches its offset (log 22). -/
theorem accessReachesItsInstance : Obligations.AccessReachesItsInstance := by
  intro sys j p a off hpages hp
  obtain ⟨t, ht⟩ := exec_next (decode (busx a off)) p.block
  have hplaced : placedStep (.hostAccess a (256 * p.page + off.toNat) 4) p = .next t :=
    (runHostAccess_of_ok (windowOffset_of_offset (256 * p.page) off)).trans ht
  exact ⟨t, ht, systemStep_eq_next_iff.mpr ⟨j, p, t, ownerOf_of_nodup hpages hp off, hp, hplaced, rfl⟩⟩

end Sys2Proof.Machine

/-! ## Liveness, the busy hazard and reset (70_reset_and_hazards.md R121, R122, R125, R129)

A busy state of the engine's invariant is an in-flight COMPRESS of its own H and ML, so the lemmas about `InFlight` say
how its engine turns and its wait end. After an accepted COMPRESS and j ticks H and BUSY are as
`compressTakesExactlyTenTicks` says, and these decide what one more access answers. -/

namespace Sys2Proof.Machine

/-! ### The engine's turns with nothing planned (R129) -/

/-- With nothing planned the first of several steps is the engine's turn (log 3). -/
theorem run_succ_of_engineTurn (n : Nat) {s t : State} (hin : s.inputs = []) (h : engineTurn s = .next t) :
    Host.Core.run core (n + 1) s = Host.Core.run core n t := by
  have hstep : core.step s = .next t := (step_of_nil hin).trans h
  simp only [Host.Core.run, hstep]

/-- With nothing planned, as many steps as ticks are missing finish an in-flight COMPRESS. -/
theorem run_of_inFlight (n : Nat) {h0 : Grid} {m : Block} {k : Nat} {s : State} (hs : InFlight h0 m k s)
    (hin : s.inputs = []) (hk : k + n = 10) :
    ∃ t, Host.Core.run core n s = .next t ∧ t.h = compressGrid h0 (blockToGrid m) ∧
      t.status = { s.status with busy := false, done := true } ∧ t.msg = s.msg := by
  induction n generalizing k s with
  | zero =>
    obtain ⟨-, hlt, -⟩ := hs
    omega
  | succ n ih =>
    rcases Nat.lt_or_ge k 9 with hlt | hge
    · obtain ⟨u, hu, hfl, hmsg, hst, huin, -⟩ := inFlight_tick hs hlt
      obtain ⟨t, ht, hh, hst', hmsg'⟩ := ih hfl (huin.trans hin) (by omega)
      exact ⟨t, (run_succ_of_engineTurn n hin hu).trans ht, hh, by rw [hst', hst], hmsg'.trans hmsg⟩
    · obtain ⟨rfl, rfl⟩ : k = 9 ∧ n = 0 := by
        obtain ⟨-, hlt, -⟩ := hs
        omega
      obtain ⟨t, ht, hh, hst, hmsg, -⟩ := inFlight_last hs
      exact ⟨t, run_succ_of_engineTurn 0 hin ht, hh, hst, hmsg⟩

/-- Settles O42: the invariant makes the state an in-flight COMPRESS after r ticks. -/
theorem busyBlockFinishesByItself : Obligations.BusyBlockFinishesByItself := by
  intro s hs hb hin
  obtain ⟨hr, -⟩ := hs.2 hb
  obtain ⟨t, ht, hh, hst, hmsg⟩ := run_of_inFlight (10 - s.r.toNat) (inFlight_of_engineInv hs hb) hin (by omega)
  exact ⟨t, ht, by rw [hh, blockToGrid_gridToBlock], hst, hmsg⟩

/-- Settles O54: the same in-flight COMPRESS, under a wait (log 19). -/
theorem waitEndsWithResult : Obligations.WaitEndsWithResult := by
  intro s schedule hs hb hsum
  obtain ⟨t, ht, hmsg, hh, hst⟩ := waitIdle_of_inFlight schedule (inFlight_of_engineInv hs hb) (by omega)
  exact ⟨t, ht, hst, by rw [hh, blockToGrid_gridToBlock], hmsg⟩

/-! ### An access without the wait (R125) -/

theorem runInputs_concat_of_next {is : List Input} {i : Input} {s t u : State} (his : runInputs is s = .next t)
    (hi : stepInput i t = .next u) : runInputs (is ++ [i]) s = .next u := by
  rw [runInputs_append_of_next his, runInputs_cons_of_next hi, runInputs_nil]

theorem stepInput_read_hash (n : BitVec 4) (s : State) :
    stepInput (.packet (busx .read (hashOffset n))) s = .next (answerRead (blockWord (gridToBlock s.h) n) s) := by
  rw [stepInput_packet, decode_read_hash]
  rfl

/-- While idle INIT, COMPRESS and LOAD_H are answered OK and leave ERR_BUSY (R78, R80 to R82). -/
theorem cmdWrite_accepted {v : Word} {s : State} (hv : v = 1#32 ∨ v = 2#32 ∨ v = 3#32) (hb : s.status.busy = false) :
    (cmdWrite v s).status.errBusy = s.status.errBusy ∧ (cmdWrite v s).reply = some ⟨.ok, none, none⟩ := by
  obtain rfl | rfl | rfl := hv
  · rw [cmdWrite_one, whenIdle_of_idle hb]
    exact ⟨rfl, rfl⟩
  · rw [cmdWrite_two, whenIdle_of_idle hb]
    exact ⟨rfl, rfl⟩
  · rw [cmdWrite_three, whenIdle_of_idle hb]
    exact ⟨rfl, rfl⟩

/-- Settles O41: H and BUSY after j ticks decide what the read returns and whether the command is dropped. -/
theorem busyHazardHasBothOutcomes : Obligations.BusyHazardHasBothOutcomes := by
  intro s j hb hj
  obtain ⟨t, ht, -, -, -, -, hh, hst, -⟩ := compressTakesExactlyTenTicks s j hb hj
  refine ⟨fun n => ?_, fun v hv => ?_⟩
  · have hblock : gridToBlock t.h =
        if j < 10 then gridToBlock s.h else compressBlock (gridToBlock s.h) s.msg := by
      rw [hh, apply_ite gridToBlock, compressBlock_gridToBlock]
    refine ⟨_, runInputs_concat_of_next ht (stepInput_read_hash n t), ?_⟩
    rw [← hblock]
    rfl
  · refine ⟨cmdWrite v t, runInputs_concat_of_next ht (exec_decodeCmdw v t), fun hlt => ?_, fun hten => ?_⟩
    · have hbusy : t.status.busy = true := by rw [hst]; exact decide_eq_true hlt
      rw [cmdWrite_of_busy hv hbusy]
      exact ⟨rfl, hbusy, rfl⟩
    · have hidle : t.status.busy = false := by rw [hst]; exact decide_eq_false hten.not_lt
      obtain ⟨herr, hreply⟩ := cmdWrite_accepted hv hidle
      exact ⟨by rw [herr, hst], hreply⟩

/-! ### Reset (R121, R122) -/

/-- Settles O45: the step takes the planned reset, and `resetBlock` reads nothing of the state but the plan (log 1). -/
theorem resetInputResetsEverything : Obligations.ResetInputResetsEverything := fun _ _ h =>
  (step_of_cons h).trans (stepInput_reset _)

end Sys2Proof.Machine
